-- ==== Sys2Proof/Word.lean ====
section
/-! DEFINITION. The word types of the block: bytes of system memory and 32-bit registers (spec/00_scope.md R8). -/

namespace Sys2Proof

/-- A byte of system memory or of the output stream. -/
abbrev Byte := BitVec 8

/-- A register of the window; system addresses have the same 32 bits (R8). -/
abbrev Word := BitVec 32

end Sys2Proof
end

