-- ==== Sys2Proof/Config.lean ====
section
/-! DEFINITION. The named constants of the block (spec/00_scope.md R6 and R8, spec/60_exceptions.md R220), the open
parameter REG_BASE, and the source of the values the spec leaves open. -/

namespace Sys2Proof.Config

/-- MIN_SEARCH_DISTANCE (R6): the nearest distance probed. It is a constant of its own, never derived (R108). -/
def minSearchDistance : Nat := 8

/-- MAX_DISTANCE (R6): the farthest distance probed. -/
def maxDistance : Nat := 4096

/-- MIN_MATCH (R6). -/
def minMatch : Nat := 3

/-- MAX_MATCH (R6). -/
def maxMatch : Nat := 18

/-- GROUP_SIZE (R6): tokens per flag byte. -/
def groupSize : Nat := 8

/-- FORMAT_TAG (R6): the low byte of the header word. -/
def formatTag : Nat := 0x10

/-- MAX_INPUT_LENGTH (R6): the largest legal IN_LEN. -/
def maxInputLength : Nat := 0xFFFFFF

/-- PAD_MULTIPLE (R6): the stream length is a multiple of this. -/
def padMultiple : Nat := 4

/-- System memory has 2^32 bytes (R8, spec/20_memory.md R50). -/
def spaceSize : Nat := 4294967296

/-- ERR_INVALID_ARGUMENT, -1 as a 32-bit two's complement word (R220). -/
def errInvalidArgument : Word := 0xFFFFFFFF

/-- ERR_OUTPUT_EXHAUSTED, -2 as a 32-bit two's complement word (R220). -/
def errOutputExhausted : Word := 0xFFFFFFFE

/-- REG_BASE: an OPEN parameter of the platform (R8, spec/10_state.md R22). Nothing can prove a value of it.
UNVERIFIED, safe: assumption 17. -/
opaque regBase : Word

/-- The values the spec leaves open ("any value", spec/70_reset_and_hazards.md R231 and R235), one for each draw.
No body, so no proof can see one. Safe: assumption 5. -/
opaque freeByte : Nat → Byte

end Sys2Proof.Config
end

