-- ==== Sys2Proof/Syntax.lean ====
section
/-! DEFINITION. The instructions of spec/opcode_table.json, one constructor a row, and the two things they are decoded
from: bytes at a place of the output stream, and an access to the register window (spec/30_encoding.md). -/

namespace Sys2Proof

/-- A token of the stream, with its real length and distance (spec/00_scope.md R11). -/
inductive Token where
  | literal (b : Byte)
  | backRef (length distance : Nat)
deriving DecidableEq, Repr

/-- The four argument registers (spec/10_state.md R25 to R28), which rows R198 and R199 share. -/
inductive ArgReg where
  | inAddr
  | inLen
  | outAddr
  | outCap
deriving DecidableEq, Repr

/-- What an access to the register window does: a read, or a write of a 32-bit value (R80). -/
inductive BusOp where
  | read
  | write (v : Word)
deriving DecidableEq, Repr

/-- One constructor per row of spec/opcode_table.json. The first five are the elements of the output stream, which the
engine writes; the others are the host's accesses to the register window. -/
inductive Instr where
  /-- HEADER: the header word of an input of `n` bytes (R71, R173). -/
  | header (n : Nat)
  /-- FLAG: the flag byte of a group (R73, R141, R145). -/
  | flag (f : Byte)
  /-- LIT: a literal token (R75, R142). -/
  | lit (b : Byte)
  /-- MATCH: a match token (R74, R143). -/
  | backRef (length distance : Nat)
  /-- PAD: a padding byte (R76, R176). -/
  | pad
  /-- WR CTRL with bit 0 set while BUSY = 0 (R191). -/
  | wrCtrlStart (v : Word)
  /-- WR CTRL with bit 0 set while BUSY = 1 (R192). -/
  | wrCtrlBusy (v : Word)
  /-- WR CTRL with bit 0 clear (R193). -/
  | wrCtrlNoStart (v : Word)
  /-- RD CTRL (R194). -/
  | rdCtrl
  /-- RD STATUS (R195). -/
  | rdStatus
  /-- WR STATUS (R196). -/
  | wrStatus (v : Word)
  /-- RD RESULT (R197). -/
  | rdResult
  /-- WR RESULT (R197). -/
  | wrResult (v : Word)
  /-- WR IN_ADDR, IN_LEN, OUT_ADDR or OUT_CAP (R198). -/
  | wrArg (r : ArgReg) (v : Word)
  /-- RD IN_ADDR, IN_LEN, OUT_ADDR or OUT_CAP (R199). -/
  | rdArg (r : ArgReg)
  /-- RD or WR at offset 0x1C (R200). -/
  | reserved (op : BusOp)
deriving DecidableEq, Repr

/-- The instruction that emits a token. -/
def Token.toInstr : Token → Instr
  | .literal b => .lit b
  | .backRef l d => .backRef l d

/-- Which element a place of the stream holds. The bytes alone do not say: the flag bit tells a literal from a match,
and the position tells the rest (R78). -/
inductive StreamSlot where
  | header
  | flag
  | token (isMatch : Bool)
  | pad
deriving DecidableEq, Repr

/-- An access to the 32-byte register window: the offset from REG_BASE, the width in bytes, and what it does (R80). -/
structure Access where
  offset : BitVec 5
  width : Nat
  op : BusOp
deriving DecidableEq, Repr

/-- What the decoder is given. `busy` is STATUS.BUSY, which tells two rows of WR CTRL apart. -/
inductive Fetched where
  | stream (slot : StreamSlot) (bytes : List Byte)
  | bus (busy : Bool) (a : Access)
deriving DecidableEq, Repr

end Sys2Proof
end

