-- ==== Sys2Proof/WellFormed.lean ====
section
/-! DEFINITION. Which instructions are well formed: the operand ranges of spec/30_encoding.md and the match column of
spec/opcode_table.json. -/

namespace Sys2Proof

/-- The format's range of a match token (spec/00_scope.md R11): lengths 3 to 18, distances 1 to 4096. -/
def Token.wf : Token → Bool
  | .literal _ => true
  | .backRef l d =>
    decide (Config.minMatch ≤ l) && decide (l ≤ Config.maxMatch) && decide (1 ≤ d) && decide (d ≤ Config.maxDistance)

/-- The encoder's own range (spec/00_scope.md R13, R79): as `Token.wf`, with distances from 8 up. -/
def Token.emittable : Token → Bool
  | .literal _ => true
  | .backRef l d =>
    decide (Config.minMatch ≤ l) && decide (l ≤ Config.maxMatch) && decide (Config.minSearchDistance ≤ d)
      && decide (d ≤ Config.maxDistance)

/-- Well-formedness of an instruction. -/
def Instr.wf : Instr → Bool
  | .header n => decide (n ≤ Config.maxInputLength)
  | .flag _ => true
  | .lit _ => true
  | .backRef l d => Token.wf (.backRef l d)
  | .pad => true
  | .wrCtrlStart v => v.getLsbD 0
  | .wrCtrlBusy v => v.getLsbD 0
  | .wrCtrlNoStart v => !v.getLsbD 0
  | .rdCtrl => true
  | .rdStatus => true
  | .wrStatus _ => true
  | .rdResult => true
  | .wrResult _ => true
  | .wrArg _ _ => true
  | .rdArg _ => true
  | .reserved _ => true

end Sys2Proof
end

