-- ==== Sys2Proof/Decode.lean ====
section
/-! DEFINITION. The encodings of spec/30_encoding.md: the decoder of stream elements and of register accesses, total and
rejecting by name; the encoder; and the grammar of a whole output stream (R70) with its reader (R78). -/

namespace Sys2Proof

/-- Why the decoder rejects what it is given. -/
inductive DecodeError where
  /-- the stream ends inside an element -/
  | tooFewBytes
  /-- bytes are left over after the element -/
  | trailingBytes
  /-- the header's low byte is not 0x10 (R71) -/
  | badFormatTag
  /-- a padding byte is not 0x00 (R76) -/
  | nonzeroPadding
  /-- an unused bit of the last flag byte is 1 (R73) -/
  | nonzeroUnusedFlagBit
  /-- the tokens cover more bytes than the header announces -/
  | tooManyTokens
  /-- the access is not 32 bits wide (R80, R202) -/
  | badWidth
  /-- offset bits 1:0 are not 00 (R80, R202) -/
  | misalignedOffset
deriving DecidableEq, Repr

/-! ### Fields -/

/-- Byte `i` of a number, counted from the least significant. -/
def byteOf (v i : Nat) : Byte := BitVec.ofNat 8 (v >>> (8 * i))

/-- The number that little-endian bytes spell. -/
def leNat : List Byte → Nat
  | [] => 0
  | b :: bs => b.toNat + 256 * leNat bs

/-- The header word `(N << 8) | 0x10` (R71). -/
def headerWord (n : Nat) : Nat := (n <<< 8) ||| Config.formatTag

/-- The header's four bytes, little-endian (R71, spec/20_memory.md R55). -/
def headerBytes (n : Nat) : List Byte :=
  [byteOf (headerWord n) 0, byteOf (headerWord n) 1, byteOf (headerWord n) 2, byteOf (headerWord n) 3]

/-- `encodedDistance`, always distance - 1 (spec/00_scope.md R11). -/
def encodedDistance (distance : Nat) : Nat := distance - 1

/-- byte1 of a match token: L in bits 7:4, D[11:8] in bits 3:0 (R74). -/
def matchByte1 (length distance : Nat) : Byte :=
  BitVec.ofNat 8 ((((length - Config.minMatch) &&& 0xF) <<< 4) ||| ((encodedDistance distance >>> 8) &&& 0xF))

/-- byte2 of a match token: D[7:0] (R74). -/
def matchByte2 (distance : Nat) : Byte := BitVec.ofNat 8 (encodedDistance distance &&& 0xFF)

/-- The bytes of a token, in stream order (R74, R75). -/
def Token.bytes : Token → List Byte
  | .literal b => [b]
  | .backRef l d => [matchByte1 l d, matchByte2 d]

/-- True for a match, which is the value of its flag bit (R73). -/
def Token.isMatch : Token → Bool
  | .literal _ => false
  | .backRef _ _ => true

/-- How many input bytes a token stands for (spec/41_token_selector.md R123). -/
def Token.span : Token → Nat
  | .literal _ => 1
  | .backRef l _ => l

/-- The length that byte1 of a match token gives: L + 3 (R77). -/
def matchLengthOf (byte1 : Byte) : Nat := byte1.toNat / 16 + Config.minMatch

/-- The distance that the two bytes of a match token give: D + 1 (R77). -/
def matchDistanceOf (byte1 byte2 : Byte) : Nat := (byte1.toNat % 16) * 256 + byte2.toNat + 1

/-! ### Decoding one element -/

/-- Decode the element that stands at a place of the stream, and give the bytes after it (R71 to R78). -/
def decodeElement : StreamSlot → List Byte → Except DecodeError (Instr × List Byte)
  | .header, b0 :: b1 :: b2 :: b3 :: rest =>
    if b0.toNat = Config.formatTag then .ok (.header (leNat [b1, b2, b3]), rest) else .error .badFormatTag
  | .header, _ => .error .tooFewBytes
  | .flag, f :: rest => .ok (.flag f, rest)
  | .flag, [] => .error .tooFewBytes
  | .token true, b1 :: b2 :: rest => .ok (.backRef (matchLengthOf b1) (matchDistanceOf b1 b2), rest)
  | .token true, _ => .error .tooFewBytes
  | .token false, b :: rest => .ok (.lit b, rest)
  | .token false, [] => .error .tooFewBytes
  | .pad, b :: rest => if b = 0 then .ok (.pad, rest) else .error .nonzeroPadding
  | .pad, [] => .error .tooFewBytes

/-- WR CTRL in its three cases: bit 0 of the value and STATUS.BUSY decide (R191 to R193). -/
def decodeWrCtrl (busy : Bool) (v : Word) : Instr :=
  if v.getLsbD 0 then (if busy then .wrCtrlBusy v else .wrCtrlStart v) else .wrCtrlNoStart v

/-- The reads of R80's register table: offset bits 4:2 select the slot. -/
def decodeRead (slot : Nat) : Instr :=
  match slot with
  | 0 => .rdCtrl
  | 1 => .rdStatus
  | 2 => .rdArg .inAddr
  | 3 => .rdArg .inLen
  | 4 => .rdArg .outAddr
  | 5 => .rdArg .outCap
  | 6 => .rdResult
  | _ => .reserved .read

/-- The writes of R80's register table. -/
def decodeWrite (busy : Bool) (v : Word) (slot : Nat) : Instr :=
  match slot with
  | 0 => decodeWrCtrl busy v
  | 1 => .wrStatus v
  | 2 => .wrArg .inAddr v
  | 3 => .wrArg .inLen v
  | 4 => .wrArg .outAddr v
  | 5 => .wrArg .outCap v
  | 6 => .wrResult v
  | _ => .reserved (.write v)

/-- The register table of R80. -/
def decodeSlot (busy : Bool) (slot : Nat) (op : BusOp) : Instr :=
  match op with
  | .read => decodeRead slot
  | .write v => decodeWrite busy v slot

/-- Decode an access to the register window. An access that is not aligned or not 32 bits wide spells no operation
(R80, spec/45_host_commands.md R202). -/
def decodeAccess (busy : Bool) (a : Access) : Except DecodeError Instr :=
  if a.width ≠ 4 then .error .badWidth
  else if a.offset.toNat % 4 ≠ 0 then .error .misalignedOffset
  else .ok (decodeSlot busy (a.offset.toNat / 4) a.op)

/-- The decoder. An element must use all the bytes it is given. -/
def decode : Fetched → Except DecodeError Instr
  | .stream slot bytes =>
    match decodeElement slot bytes with
    | .ok (i, []) => .ok i
    | .ok (_, _ :: _) => .error .trailingBytes
    | .error e => .error e
  | .bus busy a => decodeAccess busy a

/-- The access that a system address names, if it lies in the 32 bytes at REG_BASE (R80, spec/20_memory.md R50).
Addresses are compared as the 32-bit words they are. -/
def Access.ofAddress (addr : Word) (width : Nat) (op : BusOp) : Option Access :=
  if (addr - Config.regBase).toNat < 32 then
    some { offset := BitVec.ofNat 5 (addr - Config.regBase).toNat, width := width, op := op }
  else none

/-! ### Encoding -/

/-- The offset of an argument register in the window (spec/10_state.md R22). -/
def ArgReg.offset : ArgReg → BitVec 5
  | .inAddr => 0x08
  | .inLen => 0x0C
  | .outAddr => 0x10
  | .outCap => 0x14

/-- An aligned 32-bit access (R80). -/
def wordAccess (busy : Bool) (offset : BitVec 5) (op : BusOp) : Fetched :=
  .bus busy { offset := offset, width := 4, op := op }

/-- The encoder: the bytes of a stream element at its place (R71 to R76), the access of a host operation (R80). The flag
BUSY matters for WR CTRL with bit 0 set alone. -/
def encode : Instr → Fetched
  | .header n => .stream .header (headerBytes n)
  | .flag f => .stream .flag [f]
  | .lit b => .stream (.token false) [b]
  | .backRef l d => .stream (.token true) [matchByte1 l d, matchByte2 d]
  | .pad => .stream .pad [0]
  | .wrCtrlStart v => wordAccess false 0x00 (.write v)
  | .wrCtrlBusy v => wordAccess true 0x00 (.write v)
  | .wrCtrlNoStart v => wordAccess false 0x00 (.write v)
  | .rdCtrl => wordAccess false 0x00 .read
  | .rdStatus => wordAccess false 0x04 .read
  | .wrStatus v => wordAccess false 0x04 (.write v)
  | .rdResult => wordAccess false 0x18 .read
  | .wrResult v => wordAccess false 0x18 (.write v)
  | .wrArg r v => wordAccess false r.offset (.write v)
  | .rdArg r => wordAccess false r.offset .read
  | .reserved op => wordAccess false 0x1C op

/-! ### The words of the opcode table -/

/-- The first `k` bytes of a number, least significant first. -/
def leBytes (k w : Nat) : List Byte := (List.range k).map (byteOf w)

/-- The bytes, in stream order, of a table word, and the place of the stream they stand at. HEADER is a little-endian
32-bit word and MATCH a big-endian halfword, as the table's formats say. The table gives FLAG, LIT and PAD the same 8
bits (R78: position and flag bit tell them apart); with the word alone, 0x00 is read as PAD, whose mask is the only full
one, and any other byte as LIT. DESIGN CHOICE, safe: assumption 11. -/
def fetchedOfTableWord (nbits w : Nat) : Option Fetched :=
  match nbits with
  | 32 => some (.stream .header (leBytes 4 w))
  | 16 => some (.stream (.token true) [byteOf w 1, byteOf w 0])
  | 8 => some (if byteOf w 0 = 0 then .stream .pad [0] else .stream (.token false) [byteOf w 0])
  | _ => none

/-- The instruction the decoder reads from a word of the opcode table. -/
def decodeTableWord (nbits w : Nat) : Option Instr :=
  match fetchedOfTableWord nbits w with
  | none => none
  | some f =>
    match decode f with
    | .ok i => some i
    | .error _ => none

/-! ### The whole stream (R70) -/

/-- The flag byte of a group's tokens from token `t` on: bit (7 - t) is 1 for a match (R73). -/
def flagByteFrom : Nat → List Token → Byte
  | _, [] => 0
  | t, tok :: ts => (if tok.isMatch then (1 : Byte) <<< (7 - t) else 0) ||| flagByteFrom (t + 1) ts

/-- A group: the flag byte, then the bytes of the tokens it classifies (R72). -/
def groupBytes (ts : List Token) : List Byte := flagByteFrom 0 ts :: ts.flatMap Token.bytes

/-- Every group holds 8 tokens but the last (R70). The first argument bounds the number of groups. -/
def groupsBytes : Nat → List Token → List Byte
  | 0, _ => []
  | _ + 1, [] => []
  | k + 1, t :: ts =>
    groupBytes ((t :: ts).take Config.groupSize) ++ groupsBytes k ((t :: ts).drop Config.groupSize)

/-- How many padding bytes follow `size` bytes (R76). -/
def padCount (size : Nat) : Nat := (Config.padMultiple - size % Config.padMultiple) % Config.padMultiple

/-- The header and the groups, before padding. -/
def streamBody (n : Nat) (ts : List Token) : List Byte := headerBytes n ++ groupsBytes ts.length ts

/-- The output stream of an input of `n` bytes that was cut into the tokens `ts` (R70). -/
def streamOf (n : Nat) (ts : List Token) : List Byte :=
  streamBody n ts ++ List.replicate (padCount (streamBody n ts).length) 0

/-- Read the tokens of one group from token `t` on, `covered` of the `n` input bytes having been covered. The first
argument is how many tokens the group can still hold. Each token's flag bit says what it is (R78). -/
def readTokens (flag : Byte) (n : Nat) : Nat → Nat → Nat → List Byte → Except DecodeError (List Token × Nat × List Byte)
  | 0, _, covered, bs => .ok ([], covered, bs)
  | k + 1, t, covered, bs =>
    if covered = n then
      if flag.toNat % 2 ^ (8 - t) = 0 then .ok ([], covered, bs) else .error .nonzeroUnusedFlagBit
    else if flag.getLsbD (7 - t) then
      match bs with
      | b1 :: b2 :: rest =>
        let tok := Token.backRef (matchLengthOf b1) (matchDistanceOf b1 b2)
        match readTokens flag n k (t + 1) (covered + tok.span) rest with
        | .ok (ts, c, r) => .ok (tok :: ts, c, r)
        | .error e => .error e
      | _ => .error .tooFewBytes
    else
      match bs with
      | b :: rest =>
        match readTokens flag n k (t + 1) (covered + 1) rest with
        | .ok (ts, c, r) => .ok (Token.literal b :: ts, c, r)
        | .error e => .error e
      | [] => .error .tooFewBytes

/-- Read groups until the tokens cover the `n` input bytes. The first argument bounds the number of groups. -/
def readGroups (n : Nat) : Nat → Nat → List Byte → Except DecodeError (List Token × List Byte)
  | 0, _, _ => .error .tooFewBytes
  | k + 1, covered, bs =>
    if covered = n then .ok ([], bs)
    else if n < covered then .error .tooManyTokens
    else
      match bs with
      | [] => .error .tooFewBytes
      | f :: rest =>
        match readTokens f n Config.groupSize 0 covered rest with
        | .error e => .error e
        | .ok (ts, c, r) =>
          match readGroups n k c r with
          | .ok (us, r') => .ok (ts ++ us, r')
          | .error e => .error e

/-- Read a complete output stream back to the input length and the tokens (R70, R72, R78). It reads the grammar of the
stream; expanding the tokens is out of scope (spec/00_scope.md R5). -/
def readStream (bs : List Byte) : Except DecodeError (Nat × List Token) :=
  match decodeElement .header bs with
  | .ok (.header n, rest) =>
    match readGroups n (rest.length + 1) 0 rest with
    | .error e => .error e
    | .ok (ts, pads) =>
      if pads.length = padCount (bs.length - pads.length) then
        if pads.all (· = 0) then .ok (n, ts) else .error .nonzeroPadding
      else if pads.length < padCount (bs.length - pads.length) then .error .tooFewBytes
      else .error .trailingBytes
  | .ok _ => .error .badFormatTag
  | .error e => .error e

end Sys2Proof
end

