-- ==== Sys2Proof/Machine/State.lean ====
section
/-! DEFINITION. The state of the block, its host and system memory (spec/10_state.md, spec/20_memory.md R50), the state
after reset, and the reasons a step can stop. -/

namespace Sys2Proof.Machine

/-- System memory: (address, byte) pairs with rising addresses; an address that is not listed reads as
`Memory.unlistedByte` (Machine/Ops.lean). -/
abbrev Memory := List Host.Cell

/-- The engine's phase (R32). -/
inductive Phase where
  | idle
  | validate
  | header
  | token
  | pad
deriving DecidableEq, Repr

/-- The two agents (spec/00_scope.md R14). -/
inductive Agent where
  | host
  | engine
deriving DecidableEq, Repr

/-- A range of system addresses, `[base, base + size)`. -/
structure Region where
  base : Nat
  size : Nat
deriving DecidableEq, Repr

/-- One operation of the host, or what the host's side does to the block (spec/30_encoding.md R80 and R82,
spec/20_memory.md R50, spec/70_reset_and_hazards.md R230). -/
inductive HostOp where
  /-- an access to the register window -/
  | access (a : Access)
  /-- WAIT_DONE: read STATUS until DONE reads 1 (R82) -/
  | waitDone
  /-- the host writes a byte of system memory -/
  | memWrite (addr : Word) (v : Byte)
  /-- the host reads a byte of system memory -/
  | memRead (addr : Word)
  /-- a reset of the block (R230, R231) -/
  | resetBlock
deriving DecidableEq, Repr

/-- The two errors that end a job (spec/60_exceptions.md R210). -/
inductive JobError where
  | invalidArgument
  | outputExhausted
deriving DecidableEq, Repr

/-- Why a step stops with a fault. -/
inductive Fault where
  /-- An element of the stream, or the token selection, would touch a system address of 2^32 or more, which does not
  exist (R50). Raised by the shared operations `append` and `writeFlag` and by the engine's TOKEN step. A job that passed
  VALIDATE never raises it (R54, R215). Safe: the model stops. Assumption 9. -/
  | outsideAddressSpace
deriving DecidableEq, Repr

/-- Why a step is refused. -/
inductive Refusal where
  /-- An instruction with no meaning yet. No arm of `exec` uses it. Safe: the model stops. -/
  | notModelled (mnemonic : String)
  /-- The host makes an access that spells no operation (R80, R202: "A model refuses it"). Raised by the host's step.
  Safe: the model stops. Assumption 10. -/
  | malformedAccess (why : DecodeError)
  /-- The host writes a byte of the input or output region while BUSY = 1 (R234, R235: the host has no such move).
  Raised by the host's step. Safe for the model; it errs toward proving for a host that breaks its duty. Assumption 7. -/
  | hostWriteDuringJob
  /-- A job whose arguments are valid has a region that reaches a device (R239: the model "refuses such a launch").
  Raised by the VALIDATE step. Safe: the model stops. Assumption 8. -/
  | deviceRegion
  /-- The host touches a device through its system memory operations, whose behaviour no rule gives (R60). Raised by the
  host's step. Safe: the model stops. Assumption 8. -/
  | deviceAccess
deriving DecidableEq, Repr

/-- Everything the spec gives the machine, and the five fields of the model's own at the end. -/
structure State where
  /-- IN_ADDR (R25) -/
  inAddr : Word
  /-- IN_LEN (R26) -/
  inLen : Word
  /-- OUT_ADDR (R27) -/
  outAddr : Word
  /-- OUT_CAP (R28) -/
  outCap : Word
  /-- STATUS.BUSY (R24) -/
  busy : Bool
  /-- STATUS.DONE (R24) -/
  done : Bool
  /-- STATUS.ERR (R24) -/
  err : BitVec 2
  /-- RESULT (R29) -/
  result : Word
  /-- phase (R31, R32) -/
  phase : Phase
  /-- off, the input cursor (R31) -/
  off : Nat
  /-- cursor, the bytes appended so far (R31) -/
  cursor : Nat
  /-- flagPos, the output index of the open group's flag byte (R31) -/
  flagPos : Nat
  /-- flagVal, the flag byte in progress (R31) -/
  flagVal : Byte
  /-- count, the tokens already in the open group (R31) -/
  count : Nat
  /-- system memory (R50) -/
  mem : Memory
  /-- The model's own: what the host's latest read returned. Assumption 4. -/
  rdata : Word
  /-- The model's own: the host's operations still to come, oldest first. Assumption 3. -/
  hostOps : List HostOp
  /-- The model's own: which agent moves next, and after it. Assumption 2. -/
  sched : List Agent
  /-- The model's own: the ranges of system memory that are devices. Assumption 8. -/
  devices : List Region
  /-- The model's own: how many free values have been drawn. Assumption 5. -/
  freeCtr : Nat
deriving DecidableEq, Repr

/-- The machine right after reset (R36), with memory as assumption 1 says and the model's own fields empty. -/
def State.reset : State where
  inAddr := 0
  inLen := 0
  outAddr := 0
  outCap := 0
  busy := false
  done := false
  err := 0
  result := 0
  phase := .idle
  off := 0
  cursor := 0
  flagPos := 0
  flagVal := 0
  count := 0
  mem := []
  rdata := 0
  hostOps := []
  sched := []
  devices := []
  freeCtr := 0

end Sys2Proof.Machine
end

