-- ==== Sys2Proof/Machine/Ops.lean ====
section
/-! DEFINITION. The shared operations: system memory, address ranges, how a job starts and ends (spec/20_memory.md,
spec/45_host_commands.md R191, spec/44_compressor.md R177, spec/60_exceptions.md R216), and the reset of the block
(spec/70_reset_and_hazards.md R230, R231). -/

namespace Sys2Proof.Machine

/-! ### System memory -/

/-- What an address reads as when nothing has written it. The spec gives memory no contents at power-on.
DESIGN CHOICE, unsafe: assumption 1. -/
def Memory.unlistedByte : Byte := 0

/-- The byte at an address (R52, R60). -/
def Memory.read : Memory → Nat → Byte
  | [], _ => Memory.unlistedByte
  | (b, w) :: rest, a => if b = a then w else Memory.read rest a

/-- Put a byte in front, unless it is what an unlisted address reads as. -/
def Memory.consCell (a : Nat) (v : Byte) (m : Memory) : Memory :=
  if v = Memory.unlistedByte then m else (a, v) :: m

/-- Store a byte at an address, keeping the canonical form (R52). -/
def Memory.write : Memory → Nat → Byte → Memory
  | [], a, v => Memory.consCell a v []
  | (b, w) :: rest, a, v =>
    if a < b then Memory.consCell a v ((b, w) :: rest)
    else if a = b then Memory.consCell a v rest
    else (b, w) :: Memory.write rest a v

/-- Store bytes at rising addresses, one at a time (R63). -/
def Memory.writeBytes : Memory → Nat → List Byte → Memory
  | m, _, [] => m
  | m, a, b :: bs => Memory.writeBytes (Memory.write m a b) (a + 1) bs

/-- Give the `k` bytes from an address on free values, as far as the addresses exist (R231 "any value"). `ctr` numbers
the first free value. -/
def Memory.scramble : Memory → Nat → Nat → Nat → Memory
  | m, _, _, 0 => m
  | m, a, ctr, k + 1 =>
    if a < Config.spaceSize then Memory.scramble (Memory.write m a (Config.freeByte ctr)) (a + 1) (ctr + 1) k else m

/-- The canonical form: addresses strictly rise and exist, and no entry is what an unlisted address reads as. -/
abbrev Memory.wf (m : Memory) : Prop :=
  m.Pairwise (fun c d => c.1 < d.1) ∧ ∀ c ∈ m, c.1 < Config.spaceSize ∧ c.2 ≠ Memory.unlistedByte

/-! ### Address ranges -/

/-- An address lies in a range. -/
def Region.contains (r : Region) (a : Nat) : Bool := decide (r.base ≤ a) && decide (a < r.base + r.size)

/-- Two ranges share an address, computed without wrap-around (R214). -/
def Region.meets (r q : Region) : Bool :=
  decide (r.size ≠ 0) && decide (q.size ≠ 0) && decide (r.base < q.base + q.size) && decide (q.base < r.base + r.size)

/-- A range lies inside the 32-bit address space; it may end exactly at its top (R215). -/
def Region.fits (r : Region) : Bool := decide (r.base + r.size ≤ Config.spaceSize)

/-- The bytes of a range in memory. -/
def Region.bytes (r : Region) (m : Memory) : List Byte := (List.range r.size).map fun j => m.read (r.base + j)

/-- A system address is a device's (R60). -/
def State.isDevice (s : State) (a : Nat) : Bool := s.devices.any (fun r => r.contains a)

/-! ### How a job starts and ends -/

/-- The code an error leaves in RESULT (R220). -/
def JobError.code : JobError → Word
  | .invalidArgument => Config.errInvalidArgument
  | .outputExhausted => Config.errOutputExhausted

/-- The code an error leaves in STATUS.ERR (R220). -/
def JobError.err : JobError → BitVec 2
  | .invalidArgument => 0b01
  | .outputExhausted => 0b10

/-- An error ends the job (R216): the one place where the machine takes an exception. Nothing else changes. -/
def State.terminate (e : JobError) (s : State) : State :=
  { s with result := e.code, err := e.err, busy := false, done := true, phase := .idle }

/-- `complete()` (R177). -/
def State.complete (s : State) : State :=
  { s with result := BitVec.ofNat 32 s.cursor, err := 0b00, busy := false, done := true, phase := .idle }

/-- An accepted START (R191), which is also the only way on after an error (R222). -/
def State.startJob (s : State) : State :=
  { s with busy := true, done := false, err := 0b00, result := 0, off := 0, cursor := 0, flagPos := 0, flagVal := 0,
           count := 0, phase := .validate }

/-- The block's registers and internal state at their reset values (R36, R230). -/
def State.clearBlock (s : State) : State :=
  { s with inAddr := 0, inLen := 0, outAddr := 0, outCap := 0, busy := false, done := false, err := 0, result := 0,
           phase := .idle, off := 0, cursor := 0, flagPos := 0, flagVal := 0, count := 0 }

/-- A reset of the block. During a job it abandons the job and leaves the output region with any values; it changes no
other memory (R230, R231). Assumption 6. -/
def State.resetBlock (s : State) : State :=
  if s.phase = .idle then s.clearBlock
  else
    { s.clearBlock with
      mem := s.mem.scramble s.outAddr.toNat s.freeCtr s.outCap.toNat, freeCtr := s.freeCtr + s.outCap.toNat }

/-! ### Effects that can end a job -/

/-- What a piece of an engine step does: it goes on, it raises an error of the job in some state, or it faults. -/
inductive Effect where
  | ok (s : State)
  | raise (e : JobError) (s : State)
  | fault (f : Fault)
deriving DecidableEq, Repr

/-- Go on with `k` unless an error was raised. -/
def Effect.andThen : Effect → (State → Effect) → Effect
  | .ok s, k => k s
  | .raise e s, _ => .raise e s
  | .fault f, _ => .fault f

/-- The outcome of a whole engine step: a raised error ends the job in that same step (R216). -/
def Effect.outcome : Effect → Host.Outcome State Fault Refusal
  | .ok s => .next s
  | .raise e s => .next (s.terminate e)
  | .fault f => .fault f

end Sys2Proof.Machine
end

