-- ==== Sys2Proof/Machine/Operands.lean ====
section
/-! DEFINITION. The operands: the input and output regions, the argument registers, and what a host read returns
(spec/20_memory.md R51, R53, spec/45_host_commands.md R194 to R200). -/

namespace Sys2Proof.Machine

/-- N, the input length IN_LEN (spec/00_scope.md R12). -/
def State.n (s : State) : Nat := s.inLen.toNat

/-- OUT_CAP as a number of bytes (R28). -/
def State.cap (s : State) : Nat := s.outCap.toNat

/-- The input region (R51). -/
def State.inRegion (s : State) : Region := { base := s.inAddr.toNat, size := s.n }

/-- The output region (R53). -/
def State.outRegion (s : State) : Region := { base := s.outAddr.toNat, size := s.cap }

/-- The system address of In[i], on unbounded numbers (R9, R51). -/
def State.inAt (s : State) (i : Nat) : Nat := s.inAddr.toNat + i

/-- The system address of Out[j] (R53). -/
def State.outAt (s : State) (j : Nat) : Nat := s.outAddr.toNat + j

/-- In[i] (R10, R51). -/
def State.inByte (s : State) (i : Nat) : Byte := s.mem.read (s.inAt i)

/-- Out[j] (R53). -/
def State.outByte (s : State) (j : Nat) : Byte := s.mem.read (s.outAt j)

/-- The input bytes In[0..N). -/
def State.inputBytes (s : State) : List Byte := (List.range s.n).map s.inByte

/-- Out[0..k). -/
def State.outputBytes (s : State) (k : Nat) : List Byte := (List.range k).map s.outByte

/-- The value of an argument register (R199). -/
def State.readArg (s : State) : ArgReg → Word
  | .inAddr => s.inAddr
  | .inLen => s.inLen
  | .outAddr => s.outAddr
  | .outCap => s.outCap

/-- Store an argument register, all 32 bits as written (R198). -/
def State.setArg (s : State) : ArgReg → Word → State
  | .inAddr, v => { s with inAddr := v }
  | .inLen, v => { s with inLen := v }
  | .outAddr, v => { s with outAddr := v }
  | .outCap, v => { s with outCap := v }

/-- A write of an argument register is ignored while BUSY = 1 (R198). -/
def State.writeArg (s : State) (r : ArgReg) (v : Word) : State := if s.busy then s else s.setArg r v

/-- A read returns a value to the host and has no other effect (R194, R195, R197, R199, R200). -/
def State.returnRead (s : State) (v : Word) : State := { s with rdata := v }

/-- A write of CTRL: bit 0 set while BUSY = 0 starts a job (R191), anything else has no effect (R192, R193). -/
def State.writeCtrl (s : State) (v : Word) : State := if v.getLsbD 0 && !s.busy then s.startJob else s

end Sys2Proof.Machine
end

