-- ==== Sys2Proof/Machine/Flags.lean ====
section
/-! DEFINITION. The block's two kinds of flag (spec/10_state.md R34): the STATUS word and the in-progress flag byte. -/

namespace Sys2Proof.Machine

/-- The STATUS word `zext_32(ERR || DONE || BUSY)` (R24, R195). -/
def State.statusWord (s : State) : Word :=
  BitVec.zeroExtend 32 (s.err ++ BitVec.ofBool s.done ++ BitVec.ofBool s.busy)

/-- The flag byte with the bit of token `t` of the group set: bit (7 - t) (R143). -/
def setFlagBit (f : Byte) (t : Nat) : Byte := f ||| ((1 : Byte) <<< (7 - t))

/-- The flag byte after a token: a match sets its bit, a literal leaves it 0 (R142, R143). -/
def State.markToken (s : State) (tok : Token) : Byte :=
  if tok.isMatch then setFlagBit s.flagVal s.count else s.flagVal

/-- Every bit of a flag byte from token `t` on is 0: bits (7 - t) down to 0 (R73, R148). -/
def unusedBitsClear (f : Byte) (t : Nat) : Bool := decide (f.toNat % 2 ^ (8 - t) = 0)

end Sys2Proof.Machine
end

