-- ==== Sys2Proof/Machine/HostRegs.lean ====
section
/-! DEFINITION. The meanings of the host's accesses to the register window (spec/45_host_commands.md). None of them
raises an error to the host (R190). -/

namespace Sys2Proof.Machine

/-- WR CTRL with bit 0 set while BUSY = 0 (R191). The three WR CTRL rows are cases of one access, so each meaning is the
access, which itself looks at bit 0 and BUSY: assumption 14. -/
def execWrCtrlStart (v : Word) (s : State) : Host.Outcome State Fault Refusal := .next (s.writeCtrl v)

/-- WR CTRL with bit 0 set while BUSY = 1: no effect (R192). -/
def execWrCtrlBusy (v : Word) (s : State) : Host.Outcome State Fault Refusal := .next (s.writeCtrl v)

/-- WR CTRL with bit 0 clear: no effect (R193). -/
def execWrCtrlNoStart (v : Word) (s : State) : Host.Outcome State Fault Refusal := .next (s.writeCtrl v)

/-- RD CTRL returns 0 (R194). -/
def execRdCtrl (s : State) : Host.Outcome State Fault Refusal := .next (s.returnRead 0)

/-- RD STATUS returns the STATUS word (R195). -/
def execRdStatus (s : State) : Host.Outcome State Fault Refusal := .next (s.returnRead s.statusWord)

/-- WR STATUS has no effect (R196). -/
def execWrStatus (_v : Word) (s : State) : Host.Outcome State Fault Refusal := .next s

/-- RD RESULT returns RESULT (R197). -/
def execRdResult (s : State) : Host.Outcome State Fault Refusal := .next (s.returnRead s.result)

/-- WR RESULT has no effect (R197). -/
def execWrResult (_v : Word) (s : State) : Host.Outcome State Fault Refusal := .next s

/-- WR of an argument register: stored while BUSY = 0, ignored while BUSY = 1 (R198). -/
def execWrArg (r : ArgReg) (v : Word) (s : State) : Host.Outcome State Fault Refusal := .next (s.writeArg r v)

/-- RD of an argument register (R199). -/
def execRdArg (r : ArgReg) (s : State) : Host.Outcome State Fault Refusal := .next (s.returnRead (s.readArg r))

/-- Offset 0x1C reads 0 and ignores writes (R200). -/
def execReserved (op : BusOp) (s : State) : Host.Outcome State Fault Refusal :=
  match op with
  | .read => .next (s.returnRead 0)
  | .write _ => .next s

end Sys2Proof.Machine
end

