-- ==== Sys2Proof/Machine/Writer.lean ====
section
/-! DEFINITION. The BoundedWriter (spec/43_bounded_writer.md) and the BitstreamWriter (spec/42_bitstream_writer.md). -/

namespace Sys2Proof.Machine

/-- `append` (R160): the capacity check comes before any write, so a failing append writes nothing (R161). An append
that fits the capacity and leaves the address space faults (assumption 9). -/
def State.append (bs : List Byte) (s : State) : Effect :=
  if s.cap < s.cursor + bs.length then .raise .outputExhausted s
  else if Config.spaceSize < s.outAt (s.cursor + bs.length) then .fault .outsideAddressSpace
  else .ok { s with mem := s.mem.writeBytes (s.outAt s.cursor) bs, cursor := s.cursor + bs.length }

/-- Group open: reserve the flag byte (R141). The placeholder is 0x00. -/
def State.reserveFlag (s : State) : Effect :=
  (State.append [0x00] { s with flagPos := s.cursor }).andThen fun t => .ok { t with flagVal := 0 }

/-- Group close: the flag byte goes to its reserved place, which is no append (R145, R146). -/
def State.writeFlag (f : Byte) (s : State) : Effect :=
  if Config.spaceSize ≤ s.outAt s.flagPos then .fault .outsideAddressSpace
  else .ok { s with mem := s.mem.write (s.outAt s.flagPos) f, count := 0, flagVal := 0 }

/-- A token's bytes are one append; then the flag bit and the count (R142, R143, R144). -/
def State.putToken (tok : Token) (s : State) : Effect :=
  (s.append tok.bytes).andThen fun t => .ok { t with flagVal := t.markToken tok, count := t.count + 1 }

/-- Group open if no group is open (R141). -/
def State.openGroup (s : State) : Effect := if s.count = 0 then s.reserveFlag else .ok s

/-- Group close after the 8th token, or when the input is exhausted (R145). -/
def State.closeGroup (next : Nat) (s : State) : Effect :=
  if s.count = Config.groupSize ∨ next = s.n then s.writeFlag s.flagVal else .ok s

/-- `emit(token, off')` (R147). -/
def State.emit (tok : Token) (next : Nat) (s : State) : Effect :=
  s.openGroup.andThen fun t => (t.putToken tok).andThen fun u => u.closeGroup next

/-- Emit a token and move the input cursor past what it stands for (R123, R174). -/
def State.emitToken (tok : Token) (s : State) : Effect :=
  (s.emit tok (s.off + tok.span)).andThen fun t => .ok { t with off := s.off + tok.span }

end Sys2Proof.Machine
end

