-- ==== Sys2Proof/Machine/Stream.lean ====
section
/-! DEFINITION. The meanings of the stream elements, which the engine emits (spec/44_compressor.md R173, R174, R176,
spec/42_bitstream_writer.md). Each is a whole engine step or a whole piece of one: an append that does not fit ends the
job with OutputExhausted in the same step (spec/60_exceptions.md R216, R218). -/

namespace Sys2Proof.Machine

/-- HEADER (R173): one 4-byte append; then the main loop starts at input offset 0 with no group open. -/
def execHeader (n : Nat) (s : State) : Host.Outcome State Fault Refusal :=
  ((s.append (headerBytes n)).andThen fun t => .ok { t with off := 0, count := 0, flagVal := 0, phase := .token }).outcome

/-- FLAG: with no group open it reserves the flag byte, whose final value is not known yet (R141); in an open group it
writes the flag byte `f` back and closes the group (R145). LIT and MATCH call the same two operations with `f` the flag
byte in progress. DEDUCED: assumption 13. -/
def execFlag (f : Byte) (s : State) : Host.Outcome State Fault Refusal :=
  (if s.count = 0 then s.reserveFlag else s.writeFlag f).outcome

/-- LIT (R142, R147, R174): emit the literal, opening and closing its group as needed; the cursor moves by 1. -/
def execLit (b : Byte) (s : State) : Host.Outcome State Fault Refusal := (s.emitToken (.literal b)).outcome

/-- MATCH (R143, R147, R174): emit the match, opening and closing its group as needed; the cursor moves by the length. -/
def execBackRef (length distance : Nat) (s : State) : Host.Outcome State Fault Refusal :=
  (s.emitToken (.backRef length distance)).outcome

/-- PAD (R176): at a multiple of 4 the job completes; otherwise one padding byte is appended. -/
def execPad (s : State) : Host.Outcome State Fault Refusal :=
  if s.cursor % Config.padMultiple = 0 then .next s.complete else (s.append [0x00]).outcome

end Sys2Proof.Machine
end

