-- ==== Sys2Proof/Machine/Dispatch.lean ====
section
/-! DEFINITION. One arm per instruction, each one call of its meaning. -/

namespace Sys2Proof.Machine

def exec (i : Instr) (s : State) : Host.Outcome State Fault Refusal :=
  match i with
  -- the stream elements
  | .header n => Sys2Proof.Machine.execHeader n s
  | .flag f => Sys2Proof.Machine.execFlag f s
  | .lit b => Sys2Proof.Machine.execLit b s
  | .backRef length distance => Sys2Proof.Machine.execBackRef length distance s
  | .pad => Sys2Proof.Machine.execPad s
  -- the host's register accesses
  | .wrCtrlStart v => Sys2Proof.Machine.execWrCtrlStart v s
  | .wrCtrlBusy v => Sys2Proof.Machine.execWrCtrlBusy v s
  | .wrCtrlNoStart v => Sys2Proof.Machine.execWrCtrlNoStart v s
  | .rdCtrl => Sys2Proof.Machine.execRdCtrl s
  | .rdStatus => Sys2Proof.Machine.execRdStatus s
  | .wrStatus v => Sys2Proof.Machine.execWrStatus v s
  | .rdResult => Sys2Proof.Machine.execRdResult s
  | .wrResult v => Sys2Proof.Machine.execWrResult v s
  | .wrArg r v => Sys2Proof.Machine.execWrArg r v s
  | .rdArg r => Sys2Proof.Machine.execRdArg r s
  | .reserved op => Sys2Proof.Machine.execReserved op s

end Sys2Proof.Machine
end

