-- ==== Sys2Proof/Machine/MatchFinder.lean ====
section
/-! DEFINITION. The MatchFinder (spec/40_match_finder.md): a pure function of the input bytes. -/

namespace Sys2Proof.Machine

/-- The candidate test (R105): the `len` bytes at `c` equal the `len` bytes at `off`, whatever the overlap. -/
def runsEqual (inp : Nat → Byte) (c off len : Nat) : Bool :=
  (List.range len).all fun i => decide (inp (c + i) = inp (off + i))

/-- The scan of R107 from distance `d` on. The first argument bounds the number of distances. -/
def scanFrom (inp : Nat → Byte) (off len : Nat) : Nat → Nat → Nat
  | 0, _ => 0
  | k + 1, d =>
    if d - 1 > Config.maxDistance - 1 then 0
    else if d > off then 0
    else if runsEqual inp (off - d) off len then d
    else scanFrom inp off len k (d + 1)

/-- `find(off, len)` on an input of `n` bytes (R100 to R107): the nearest distance, from 8 up, whose candidate matches,
or 0. The room check comes before any probe (R101). -/
def find (inp : Nat → Byte) (n off len : Nat) : Nat :=
  if off + len > n then 0 else scanFrom inp off len (Config.maxDistance + 1) Config.minSearchDistance

end Sys2Proof.Machine
end

