-- ==== Sys2Proof/Machine/TokenSelector.lean ====
section
/-! DEFINITION. The TokenSelector (spec/41_token_selector.md): probe the lengths in order and keep the last success. -/

namespace Sys2Proof.Machine

/-- The probe sequence of R121 from length `len` on, with the retained (length, distance) pair. The first argument is
how many lengths are left. -/
def probeLengths (inp : Nat → Byte) (n off : Nat) : Nat → Nat → Nat × Nat → Nat × Nat
  | 0, _, best => best
  | k + 1, len, best =>
    if find inp n off len = 0 then best else probeLengths inp n off k (len + 1) (len, find inp n off len)

/-- `select(off)` (R124): the token, and the input cursor after it. -/
def select (inp : Nat → Byte) (n off : Nat) : Token × Nat :=
  let best := probeLengths inp n off (Config.maxMatch + 1 - Config.minMatch) Config.minMatch (0, 0)
  if best.1 = 0 then (.literal (inp off), off + 1) else (.backRef best.1 best.2, off + best.1)

/-- The tokens of an input from `off` on (R174). The first argument bounds their number. -/
def tokensFrom (inp : Nat → Byte) (n : Nat) : Nat → Nat → List Token
  | 0, _ => []
  | k + 1, off => if off < n then (select inp n off).1 :: tokensFrom inp n k (select inp n off).2 else []

/-- In[i] of a finite byte sequence; past its end, 0, which `find` and `select` never look at (R105). -/
def byteAt (bytes : List Byte) (i : Nat) : Byte := bytes.getD i 0

/-- The tokens of a finite byte sequence. -/
def tokensOf (bytes : List Byte) : List Token :=
  tokensFrom (byteAt bytes) bytes.length bytes.length 0

end Sys2Proof.Machine
end

