-- ==== Sys2Proof/Machine/Validate.lean ====
section
/-! DEFINITION. The VALIDATE step (spec/44_compressor.md R171) and the conditions of InvalidArgument
(spec/60_exceptions.md R211 to R215, R221). -/

namespace Sys2Proof.Machine

/-- A null input pointer with a nonzero length (R211). -/
def State.nullInput (s : State) : Bool := decide (s.inAddr = 0) && decide (s.inLen ≠ 0)

/-- A null output region with a nonzero capacity (R211). -/
def State.nullOutput (s : State) : Bool := decide (s.outAddr = 0) && decide (s.outCap ≠ 0)

/-- An input longer than 24 bits can say (R212). -/
def State.inputTooLong (s : State) : Bool := decide (Config.maxInputLength < s.n)

/-- Overlapping regions, both nonempty (R214). -/
def State.regionsOverlap (s : State) : Bool := s.inRegion.meets s.outRegion

/-- A region that wraps past 2^32 (R215). -/
def State.regionWraps (s : State) : Bool := !s.inRegion.fits || !s.outRegion.fits

/-- The conditions of InvalidArgument, evaluated together (R221). The source's scratch-memory cause never occurs
(R213). -/
def State.argsInvalid (s : State) : Bool :=
  s.nullInput || s.nullOutput || s.inputTooLong || s.regionsOverlap || s.regionWraps

/-- A region of the job reaches a device (R239). -/
def State.regionOnDevice (s : State) : Bool := s.devices.any fun r => r.meets s.inRegion || r.meets s.outRegion

/-- The VALIDATE step (R171). It reads registers only and makes no memory access (R217). A job with valid arguments whose
regions reach a device is refused (R239): assumption 8. -/
def validateStep (s : State) : Host.Outcome State Fault Refusal :=
  if s.argsInvalid then .next (s.terminate .invalidArgument)
  else if s.regionOnDevice then .refused .deviceRegion
  else .next { s with phase := .header }

end Sys2Proof.Machine
end

