-- ==== Sys2Proof/Machine/Engine.lean ====
section
/-! DEFINITION. The engine's sequencer: the step relation of spec/44_compressor.md R172. -/

namespace Sys2Proof.Machine

/-- The token the engine selects at its input cursor (R174). -/
def State.selected (s : State) : Token := (select s.inByte s.n s.off).1

/-- The stream element that the engine's phase makes it emit next, if there is one: VALIDATE and the end of the main loop
emit none. -/
def State.engineElement (s : State) : Option Instr :=
  match s.phase with
  | .idle => none
  | .validate => none
  | .header => some (.header s.n)
  | .token => if s.off = s.n then none else some s.selected.toInstr
  | .pad => some .pad

/-- The TOKEN step (R174): at off = N the main loop ends; otherwise one token is selected and emitted. Selecting reads
the input, which must lie in the address space (assumption 9). -/
def tokenStep (s : State) : Host.Outcome State Fault Refusal :=
  if s.off = s.n then .next { s with phase := .pad }
  else if s.inRegion.fits then exec s.selected.toInstr s
  else .fault .outsideAddressSpace

/-- The engine's next step is the one its phase selects (R172). In IDLE it has none, and the state stays as it is
(spec/60_exceptions.md R227). -/
def engineStep (s : State) : Host.Outcome State Fault Refusal :=
  match s.phase with
  | .idle => .next s
  | .validate => validateStep s
  | .header => exec (.header s.n) s
  | .token => tokenStep s
  | .pad => exec .pad s

end Sys2Proof.Machine
end

