-- ==== Sys2Proof/Machine/HostAgent.lean ====
section
/-! DEFINITION. The host's steps (spec/45_host_commands.md R190, R203), its use of system memory while a job runs
(spec/70_reset_and_hazards.md R234, R235), the reset of the block (R230, R231), and whose turn it is. -/

namespace Sys2Proof.Machine

/-- A register access: decode it and run it, or refuse it (R202). -/
def hostAccess (a : Access) (s : State) : Host.Outcome State Fault Refusal :=
  match decodeAccess s.busy a with
  | .ok i => exec i s
  | .error e => .refused (.malformedAccess e)

/-- The host writes a byte of system memory: while a job runs it may not touch the job's regions (R234, R235). -/
def hostMemWrite (addr : Word) (v : Byte) (s : State) : Host.Outcome State Fault Refusal :=
  if s.isDevice addr.toNat then .refused .deviceAccess
  else if s.busy && (s.inRegion.contains addr.toNat || s.outRegion.contains addr.toNat) then .refused .hostWriteDuringJob
  else .next { s with mem := s.mem.write addr.toNat v }

/-- The host reads a byte of system memory: in the output region of a running job the read returns any value (R235). -/
def hostMemRead (addr : Word) (s : State) : Host.Outcome State Fault Refusal :=
  if s.isDevice addr.toNat then .refused .deviceAccess
  else if s.busy && s.outRegion.contains addr.toNat then
    .next { s.returnRead ((Config.freeByte s.freeCtr).zeroExtend 32) with freeCtr := s.freeCtr + 1 }
  else .next (s.returnRead ((s.mem.read addr.toNat).zeroExtend 32))

/-- WAIT_DONE reads STATUS; it is over when DONE read 1 (R82, R203), and the host reads again otherwise. -/
def hostWaitDone (rest : List HostOp) (s : State) : Host.Outcome State Fault Refusal :=
  if s.done then exec .rdStatus { s with hostOps := rest } else exec .rdStatus s

/-- The host's next operation. With none left the host does nothing. -/
def hostStep (s : State) : Host.Outcome State Fault Refusal :=
  match s.hostOps with
  | [] => .next s
  | .access a :: rest => hostAccess a { s with hostOps := rest }
  | .waitDone :: rest => hostWaitDone rest s
  | .memWrite a v :: rest => hostMemWrite a v { s with hostOps := rest }
  | .memRead a :: rest => hostMemRead a { s with hostOps := rest }
  | .resetBlock :: rest => .next { s.resetBlock with hostOps := rest }

/-- Whose turn it is: the schedule says, in any order (spec/00_scope.md R14). Past its end the engine moves while a job
runs, which is the weak fairness of R15. DESIGN CHOICE: assumption 2. -/
def State.turn (s : State) : Agent :=
  match s.sched with
  | a :: _ => a
  | [] => if s.busy then .engine else .host

/-- A turn of the schedule is used up. -/
def State.useTurn (s : State) : State := { s with sched := s.sched.tail }

end Sys2Proof.Machine
end

