-- ==== Sys2Proof/Machine/Staging.lean ====
section
/-! DEFINITION. The engine does not fetch a program: the phase and the input bytes select the next element
(spec/10_state.md R21). These definitions put a job at the point where the engine's very next step emits a given element.
They are how `State.withFetchWord` of Machine/Step.lean places a word of the opcode table: assumption 12. -/

namespace Sys2Proof.Machine

/-- A running job on `n` input bytes at 0x1000 and an output region that holds any stream, the engine moving next. -/
def State.stageJob (n : Nat) (s : State) : State :=
  { s.startJob with
    inAddr := 0x00001000, inLen := BitVec.ofNat 32 n, outAddr := 0x02000000, outCap := 0x02000005,
    sched := .engine :: s.sched }

/-- The job is about to write its header. -/
def State.stageHeader (n : Nat) (s : State) : State := { s.stageJob n with phase := .header }

/-- The job's one input byte is about to be emitted as a literal. -/
def State.stageLit (b : Byte) (s : State) : State :=
  { s.stageJob 1 with phase := .token, cursor := 4, mem := s.mem.write 0x1000 b }

/-- An input on which the selection at `off = distance` gives this match: 0x01 at the multiples of `distance`, 0x00
elsewhere, and `length` bytes after `off`. It needs a distance the encoder emits (R79). -/
def stageInput (length distance : Nat) : List Byte :=
  (List.range (distance + length)).map fun i => if i % distance = 0 then 1 else 0

/-- The job is about to emit a match. -/
def State.stageBackRef (length distance : Nat) (s : State) : State :=
  { s.stageJob (distance + length) with
    phase := .token, off := distance, cursor := 4, mem := s.mem.writeBytes 0x1000 (stageInput length distance) }

/-- The job has written the 6 bytes of a one-literal input and is about to pad. -/
def State.stagePad (s : State) : State := { s.stageJob 1 with phase := .pad, off := 1, cursor := 6 }

/-- A job whose very next step emits the element; a register access is no element and leaves the state as it is. -/
def State.stage (i : Instr) (s : State) : State :=
  match i with
  | .header n => s.stageHeader n
  | .lit b => s.stageLit b
  | .backRef l d => s.stageBackRef l d
  | .pad => s.stagePad
  | .flag _ => s
  | .wrCtrlStart _ => s
  | .wrCtrlBusy _ => s
  | .wrCtrlNoStart _ => s
  | .rdCtrl => s
  | .rdStatus => s
  | .wrStatus _ => s
  | .rdResult => s
  | .wrResult _ => s
  | .wrArg _ _ => s
  | .rdArg _ => s
  | .reserved _ => s

end Sys2Proof.Machine
end

