-- ==== Sys2Proof/Machine/Step.lean ====
section
/-! DEFINITION. One step of the machine: the agent whose turn it is takes one atomic step (spec/00_scope.md R14). -/

namespace Sys2Proof.Machine

/-- One step. -/
def step (s : State) : Host.Outcome State Fault Refusal :=
  match s.turn with
  | .engine => engineStep s.useTurn
  | .host => hostStep s.useTurn

/-- The state in which the very next step emits the element that a word of the opcode table spells. Where the decoder
refuses the word, nothing is placed. Assumption 12. -/
def State.withFetchWord (s : State) (nbits w : Nat) : State :=
  match decodeTableWord nbits w with
  | some i => s.stage i
  | none => s

end Sys2Proof.Machine
end

