-- ==== Sys2Proof/Machine/Reference.lean ====
section
/-! DEFINITION. The pure functions of spec/44_compressor.md: the whole job as one function (R178), and CompressBound
(R182). The engine of Machine/Engine.lean takes the steps of R172 instead; that the two agree is a statement. -/

namespace Sys2Proof.Machine

/-- The packer of R178: the bytes so far, and the open group. -/
structure Packer where
  out : List Byte
  flagPos : Nat
  flagVal : Byte
  count : Nat
deriving DecidableEq, Repr

/-- `appendF` of R178: the error carries what was written. -/
def Packer.append (cap : Nat) (bs : List Byte) (p : Packer) : Except (List Byte) Packer :=
  if cap < p.out.length + bs.length then .error p.out else .ok { p with out := p.out ++ bs }

/-- Open a group if none is open. -/
def Packer.openGroup (cap : Nat) (p : Packer) : Except (List Byte) Packer :=
  if p.count = 0 then
    match p.append cap [0x00] with
    | .ok q => .ok { q with flagPos := p.out.length, flagVal := 0 }
    | .error w => .error w
  else .ok p

/-- Append a token's bytes, set its flag bit, count it. -/
def Packer.putToken (cap : Nat) (tok : Token) (p : Packer) : Except (List Byte) Packer :=
  match p.append cap tok.bytes with
  | .ok q =>
    .ok { q with flagVal := if tok.isMatch then setFlagBit q.flagVal q.count else q.flagVal, count := q.count + 1 }
  | .error w => .error w

/-- Close the group after its 8th token or at the end of the input. -/
def Packer.closeGroup (n next : Nat) (p : Packer) : Packer :=
  if p.count = Config.groupSize ∨ next = n then
    { p with out := p.out.set p.flagPos p.flagVal, count := 0, flagVal := 0 }
  else p

/-- One token of the main loop of R178. -/
def Packer.emit (cap n next : Nat) (tok : Token) (p : Packer) : Except (List Byte) Packer :=
  match p.openGroup cap with
  | .ok q =>
    match q.putToken cap tok with
    | .ok r => .ok (r.closeGroup n next)
    | .error w => .error w
  | .error w => .error w

/-- The main loop of R178 from `off` on. The first argument bounds the number of tokens. -/
def Packer.loop (inp : Nat → Byte) (n cap : Nat) : Nat → Nat → Packer → Except (List Byte) Packer
  | 0, _, p => .ok p
  | k + 1, off, p =>
    if off < n then
      match p.emit cap n (select inp n off).2 (select inp n off).1 with
      | .ok q => Packer.loop inp n cap k (select inp n off).2 q
      | .error w => .error w
    else .ok p

/-- The padding loop of R178: at most 3 bytes are needed. -/
def Packer.pad (cap : Nat) : Nat → Packer → Except (List Byte) Packer
  | 0, p => .ok p
  | k + 1, p =>
    if p.out.length % Config.padMultiple = 0 then .ok p
    else
      match p.append cap [0x00] with
      | .ok q => Packer.pad cap k q
      | .error w => .error w

/-- `Compress(bytes, cap)` (R178): the stream, or the bytes written before OutputExhausted. -/
def compress (bytes : List Byte) (cap : Nat) : Except (List Byte) (List Byte) :=
  match Packer.append cap (headerBytes bytes.length) { out := [], flagPos := 0, flagVal := 0, count := 0 } with
  | .error w => .error w
  | .ok p =>
    match Packer.loop (byteAt bytes) bytes.length cap bytes.length 0 p with
    | .error w => .error w
    | .ok q =>
      match Packer.pad cap (Config.padMultiple - 1) q with
      | .error w => .error w
      | .ok r => .ok r.out

/-- `CompressBound(N) = 4 + 2*N + 3` (R182), a host-side function on natural numbers. -/
def compressBound (n : Nat) : Nat := 4 + 2 * n + 3

/-- The exact byte count an input needs (R184). -/
def requirement (bytes : List Byte) : Nat := (streamOf bytes.length (tokensOf bytes)).length

end Sys2Proof.Machine
end

