-- ==== Sys2Proof/Safety.lean ====
section
/-! DEFINITION. What counts as a safe run: the invariant of the machine, the shape of a clean launch
(spec/70_reset_and_hazards.md R241), and the end of a run (spec/45_host_commands.md R204). -/

namespace Sys2Proof.Machine

/-- The engine is past VALIDATE: the header, token or padding step comes next. -/
def State.pastValidate (s : State) : Bool :=
  match s.phase with
  | .idle => false
  | .validate => false
  | .header => true
  | .token => true
  | .pad => true

/-- The invariant that every step keeps. -/
structure Inv (s : State) : Prop where
  /-- memory keeps its canonical form -/
  memWf : s.mem.wf
  /-- STATUS.BUSY = 1 exactly when phase is not IDLE (R32) -/
  busyIff : s.busy = true ↔ s.phase ≠ .idle
  /-- BUSY = 1 and DONE = 1 never hold together (R24) -/
  notBusyAndDone : s.busy = true → s.done = false
  /-- ERR is nonzero only while DONE = 1 (R24) -/
  errOnlyDone : s.err ≠ 0 → s.done = true
  /-- ERR = 0b11 is never produced (R24) -/
  errLegal : s.err ≠ 0b11
  /-- RESULT is 0 from an accepted START until the job ends, and before the first job (R29, R197) -/
  resultBeforeDone : s.done = false → s.result = 0
  /-- RESULT after success is a positive multiple of 4 (R29) -/
  resultSuccess : s.done = true → s.err = 0b00 → s.result.toNat % Config.padMultiple = 0 ∧ 4 ≤ s.result.toNat
  /-- RESULT after InvalidArgument (R220) -/
  resultInvalid : s.done = true → s.err = JobError.invalidArgument.err → s.result = Config.errInvalidArgument
  /-- RESULT after OutputExhausted (R220) -/
  resultExhausted : s.done = true → s.err = JobError.outputExhausted.err → s.result = Config.errOutputExhausted
  /-- no internal state of an earlier job is left when a job starts (R33, R191) -/
  fresh : s.phase = .validate ∨ s.phase = .header → s.off = 0 ∧ s.cursor = 0 ∧ s.count = 0 ∧ s.flagVal = 0
  /-- a job past VALIDATE has valid arguments (R171) -/
  argsValid : s.pastValidate = true → s.argsInvalid = false
  /-- a job past VALIDATE works on ordinary memory (R239) -/
  ordinaryMemory : s.pastValidate = true → s.regionOnDevice = false
  /-- cursor stays within the capacity (R164) -/
  cursorBound : s.phase ≠ .idle → s.cursor ≤ s.cap
  /-- the header has been written before the tokens (R173) -/
  headerWritten : s.phase = .token ∨ s.phase = .pad → 4 ≤ s.cursor
  /-- between steps count is below 8 (R31, R140) -/
  countBound : s.phase ≠ .idle → s.count < Config.groupSize
  /-- the reserved flag byte lies below the cursor (R146) -/
  flagPosBound : s.phase ≠ .idle → 0 < s.count → s.flagPos < s.cursor
  /-- the flag bits of the tokens still to come are 0 (R148) -/
  flagBitsClear : s.phase ≠ .idle → unusedBitsClear s.flagVal s.count = true
  /-- the input cursor stays within the input, and the group is closed at its end (R123, R175) -/
  tokenPhase : s.phase = .token → s.off ≤ s.n ∧ (s.off = s.n → s.count = 0)
  /-- padding begins with the whole input encoded and no group open (R175) -/
  padPhase : s.phase = .pad → s.off = s.n ∧ s.count = 0

/-- The output region holds nothing the host may not lose and every byte outside it stays: `t` differs from `s` in memory
only inside the output region of `s` (R53). -/
def onlyOutputWritten (s t : State) : Prop :=
  ∀ a : Nat, s.outRegion.contains a = false → t.mem.read a = s.mem.read a

/-- An accepted job about to be validated, with the host staying away until it ends: with an empty schedule the engine has
every turn while BUSY = 1. This is R241 with the arguments still to be judged by VALIDATE. -/
def CleanLaunch (s : State) : Prop :=
  Inv s ∧ s.phase = .validate ∧ s.sched = [] ∧ s.regionOnDevice = false

/-- A host operation that reads STATUS (R82, R195). -/
def HostOp.readsStatus : HostOp → Bool
  | .waitDone => true
  | .access a => decide (decodeAccess false a = .ok .rdStatus)
  | .memWrite _ _ => false
  | .memRead _ => false
  | .resetBlock => false

/-- The next step is a host read of STATUS with DONE = 1. -/
def State.readsDone (s : State) : Bool :=
  s.done && decide (s.turn = .host) && (match s.hostOps with | [] => false | o :: _ => o.readsStatus)

/-- The next step is a START that the block accepts (R191). -/
def State.acceptsStart (s : State) : Bool :=
  decide (s.turn = .host) &&
    (match s.hostOps with
    | .access a :: _ =>
      match decodeAccess s.busy a with
      | .ok (.wrCtrlStart _) => true
      | _ => false
    | _ => false)

/-- `k` steps of the machine, stopping at a fault or a refusal. -/
def run : Nat → State → Host.Outcome State Fault Refusal
  | 0, s => .next s
  | k + 1, s =>
    match step s with
    | .next t => run k t
    | .fault f => .fault f
    | .refused r => .refused r

/-- The final state of a run (R204): STATUS, RESULT and the output region at its end. -/
structure RunEnd where
  status : Word
  result : Word
  output : List Byte
deriving DecidableEq, Repr

/-- Where a run stands: it has ended, or it goes on in a state, with the output region of the job that was started last if
a START has been accepted. -/
inductive Progress where
  | ended (e : RunEnd)
  | going (job : Option Region) (s : State)
deriving DecidableEq, Repr

/-- What a run has come to in a state: it ends at a STATUS read with DONE = 1, provided a START has been accepted (R204).
The output region is the one the job was started with: assumption 24. -/
def Progress.at (job : Option Region) (s : State) : Progress :=
  match job with
  | none => .going none s
  | some r =>
    if s.readsDone then .ended { status := s.statusWord, result := s.result, output := r.bytes s.mem } else .going (some r) s

/-- The output region of the job that was started last, after a step from `s`. -/
def jobAfter (job : Option Region) (s : State) : Option Region := if s.acceptsStart then some s.outRegion else job

/-- At most `k` steps of the machine, stopping where the run ends: at the FIRST host read of STATUS with DONE = 1 after the
accepted START (R204). A run begins with `job` none, so that a read of an earlier job's DONE before the START is not its
end. -/
def runToEnd : Nat → Option Region → State → Host.Outcome Progress Fault Refusal
  | 0, job, s => .next (Progress.at job s)
  | k + 1, job, s =>
    match Progress.at job s with
    | .ended e => .next (.ended e)
    | .going _ _ =>
      match step s with
      | .next t => runToEnd k (jobAfter job s) t
      | .fault f => .fault f
      | .refused r => .refused r

/-- What a decoder rebuilds from tokens, given what it has rebuilt so far: a literal is its byte, a match copies bytes from
`distance` behind the end, one by one (spec/00_scope.md R12, "Match"). It is used to state that the tokens stand for the
input; the decoder itself is out of scope (R5). -/
def copyBack : Nat → Nat → List Byte → List Byte
  | 0, _, acc => acc
  | k + 1, d, acc => copyBack k d (acc ++ [acc.getD (acc.length - d) 0])

/-- The bytes that a token list stands for, after `acc`. -/
def expand : List Token → List Byte → List Byte
  | [], acc => acc
  | .literal b :: ts, acc => expand ts (acc ++ [b])
  | .backRef l d :: ts, acc => expand ts (copyBack l d acc)

end Sys2Proof.Machine
end

