-- ==== Sys2Proof/Certificates/Slice0/Obligations.lean ====
section
/-! DEFINITION. The statements for the provers, each from the rules of spec/. Helper definitions first; they spell out what
the rules say and call none of the meanings. The statements name the parameters of R6 and R220 (Config), as
spec/92_eei_decisions.md D9 and D34 ask; ParameterValues says what they are. -/

namespace Sys2Proof.Stated

open Sys2Proof.Machine

/-- The state after group open (R141), where the reservation fits. -/
def opened (s : State) : State :=
  if s.count = 0 then
    { s with flagPos := s.cursor, mem := s.mem.write (s.outAt s.cursor) 0x00, cursor := s.cursor + 1, flagVal := 0 }
  else s

/-- The state after group close (R145). -/
def closed (next : Nat) (s : State) : State :=
  if s.count = Config.groupSize ∨ next = s.n then
    { s with mem := s.mem.write (s.outAt s.flagPos) s.flagVal, count := 0, flagVal := 0 }
  else s

/-- The state after OutputExhausted ends the job (R216, R220). -/
def exhausted (s : State) : State :=
  { s with result := Config.errOutputExhausted, err := 0b10, busy := false, done := true, phase := .idle }

/-- The state after InvalidArgument ends the job (R216, R220). -/
def invalid (s : State) : State :=
  { s with result := Config.errInvalidArgument, err := 0b01, busy := false, done := true, phase := .idle }

/-- How many bytes group open appends. -/
def openSize (s : State) : Nat := if s.count = 0 then 1 else 0

/-- The output index of the flag byte of the group that the next token belongs to (R141). -/
def groupFlagPos (s : State) : Nat := if s.count = 0 then s.cursor else s.flagPos

/-- The addresses an instruction may store to: the bytes it appends from the cursor on, and the flag byte of the token's
group. Register accesses store nothing. -/
def storesAt (i : Instr) (s : State) (a : Nat) : Bool :=
  match i with
  | .header _ => decide (s.outAt s.cursor ≤ a) && decide (a < s.outAt s.cursor + 4)
  | .flag _ => decide (a = s.outAt (groupFlagPos s))
  | .lit _ =>
    (decide (s.outAt s.cursor ≤ a) && decide (a < s.outAt s.cursor + (openSize s + 1)))
      || decide (a = s.outAt (groupFlagPos s))
  | .backRef _ _ =>
    (decide (s.outAt s.cursor ≤ a) && decide (a < s.outAt s.cursor + (openSize s + 2)))
      || decide (a = s.outAt (groupFlagPos s))
  | .pad => decide (s.cursor % Config.padMultiple ≠ 0) && decide (a = s.outAt s.cursor)
  | _ => false

/-- The stream elements, which the engine emits. -/
def isElement : Instr → Bool
  | .header _ => true
  | .flag _ => true
  | .lit _ => true
  | .backRef _ _ => true
  | .pad => true
  | _ => false

/-- The host reads. -/
def isHostRead : Instr → Bool
  | .rdCtrl => true
  | .rdStatus => true
  | .rdResult => true
  | .rdArg _ => true
  | .reserved .read => true
  | _ => false

/-- The job registers and the internal state, which a host step may not touch while BUSY = 1. -/
def sameJob (s t : State) : Prop :=
  t.inAddr = s.inAddr ∧ t.inLen = s.inLen ∧ t.outAddr = s.outAddr ∧ t.outCap = s.outCap ∧ t.busy = s.busy ∧
    t.done = s.done ∧ t.err = s.err ∧ t.result = s.result ∧ t.phase = s.phase ∧ t.off = s.off ∧ t.cursor = s.cursor ∧
    t.flagPos = s.flagPos ∧ t.flagVal = s.flagVal ∧ t.count = s.count

/-- An address of the input or the output region. -/
def inJobRegion (s : State) (a : Nat) : Bool := s.inRegion.contains a || s.outRegion.contains a

/-- The `len` bytes at distance `d` before `off` equal the `len` bytes at `off` (R105). -/
def candidate (inp : Nat → Byte) (off len d : Nat) : Prop := ∀ i < len, inp (off - d + i) = inp (off + i)

/-- The next host operation is a write of CTRL with bit 0 set. -/
def nextIsStart (s : State) : Prop :=
  ∃ (v : Word) (rest : List HostOp),
    s.hostOps = .access { offset := 0x00, width := 4, op := .write v } :: rest ∧ v.getLsbD 0 = true

end Sys2Proof.Stated

open Sys2Proof Sys2Proof.Machine Sys2Proof.Stated

/-! ### Parameters -/

/-- The named constants have the values the spec gives them (R6), and the error codes are distinct and negative (R220). -/
def Obligations.ParameterValues : Prop :=
  Config.minSearchDistance = 8 ∧ Config.maxDistance = 4096 ∧ Config.minMatch = 3 ∧ Config.maxMatch = 18 ∧
    Config.groupSize = 8 ∧ Config.formatTag = 0x10 ∧ Config.maxInputLength = 0xFFFFFF ∧ Config.padMultiple = 4 ∧
    Config.errInvalidArgument.toInt = -1 ∧ Config.errOutputExhausted.toInt = -2

/-! ### Encoding -/

/-- Every well-formed instruction decodes from its encoding, with every operand (spec/30_encoding.md). -/
def Obligations.DecodeOfEncode : Prop := ∀ i : Instr, i.wf = true → decode (encode i) = .ok i

/-- What the decoder accepts is well formed, and no bit of a stream element or of an access is dropped. BUSY is not a bit
of the access, so the encoder's own choice of it may differ. -/
def Obligations.EncodeOfDecode : Prop :=
  (∀ (slot : StreamSlot) (bytes : List Byte) (i : Instr),
      decode (.stream slot bytes) = .ok i → i.wf = true ∧ encode i = .stream slot bytes) ∧
    ∀ (busy : Bool) (a : Access) (i : Instr),
      decode (.bus busy a) = .ok i → i.wf = true ∧ ∃ b : Bool, encode i = .bus b a

/-- A few words of spec/95_test_vectors.md section 2 and spec/30_encoding.md R80, written out bit by bit, decode to the
instructions they stand for. -/
def Obligations.SampleWordsDecode : Prop :=
  decodeTableWord 32 0b00010010001101000101011000010000 = some (.header 0x123456) ∧
    decodeTableWord 16 0b1111111111111111 = some (.backRef 18 4096) ∧
    decodeTableWord 16 0b0111000100101011 = some (.backRef 10 300) ∧
    decodeTableWord 8 0b00000000 = some .pad ∧
    decode (.stream .flag [0b10000000]) = .ok (.flag 0x80) ∧
    decode (.bus false { offset := 0b00100, width := 4, op := .read }) = .ok .rdStatus ∧
    decode (.bus false { offset := 0b00000, width := 4, op := .write 1 }) = .ok (.wrCtrlStart 1) ∧
    decode (.bus true { offset := 0b10100, width := 4, op := .write 64 }) = .ok (.wrArg .outCap 64)

/-- The header's four bytes (R55). -/
def Obligations.HeaderIsLittleEndian : Prop :=
  ∀ n : Nat, n ≤ Config.maxInputLength →
    headerBytes n = [0x10, BitVec.ofNat 8 n, BitVec.ofNat 8 (n / 256), BitVec.ofNat 8 (n / 65536)] ∧
      leNat (headerBytes n) = n * 256 + 0x10

/-- The fields of a match token's two bytes (R74), for every length and distance of the format. -/
def Obligations.MatchTokenFields : Prop :=
  ∀ length distance : Nat, Config.minMatch ≤ length → length ≤ Config.maxMatch → 1 ≤ distance →
    distance ≤ Config.maxDistance →
    (matchByte1 length distance).toNat / 16 = length - 3 ∧
      (matchByte1 length distance).toNat % 16 = (distance - 1) / 256 ∧
      (matchByte2 distance).toNat = (distance - 1) % 256 ∧
      (matchByte1 length distance).toNat * 256 + (matchByte2 distance).toNat = (length - 3) * 4096 + (distance - 1)

/-- The flag byte of a group of at most 8 tokens: bit (7 - t) says what token t is, and unused bits are 0 (R73). -/
def Obligations.FlagByteClassifies : Prop :=
  ∀ ts : List Token, ts.length ≤ 8 →
    (∀ (t : Nat) (tok : Token), ts[t]? = some tok → (flagByteFrom 0 ts).getLsbD (7 - t) = tok.isMatch) ∧
      ∀ t : Nat, ts.length ≤ t → t < 8 → (flagByteFrom 0 ts).getLsbD (7 - t) = false

/-- A reader of a complete stream always knows the flag bit first, so it finds the tokens again (R70, R72, R78). The
reader is the model's own: assumption 21. -/
def Obligations.StreamReadsBack : Prop :=
  ∀ (n : Nat) (ts : List Token), n ≤ Config.maxInputLength → (∀ tok ∈ ts, tok.wf = true) → (ts.map Token.span).sum = n →
    readStream (streamOf n ts) = .ok (n, ts)

/-- The register window is the 32 bytes at REG_BASE, whatever REG_BASE is (R80). -/
def Obligations.WindowAtRegBase : Prop :=
  (∀ (off : BitVec 5) (w : Nat) (op : BusOp),
      Access.ofAddress (Config.regBase + off.zeroExtend 32) w op = some { offset := off, width := w, op := op }) ∧
    ∀ (addr : Word) (w : Nat) (op : BusOp), 32 ≤ (addr - Config.regBase).toNat → Access.ofAddress addr w op = none

/-! ### MatchFinder and TokenSelector -/

/-- find returns the nearest distance, from 8 to 4096 and not past the start of the input, whose candidate matches; 0 when
none does or the run does not fit in the input (R101, R106). -/
def Obligations.FindGivesNearestMatch : Prop :=
  ∀ (inp : Nat → Byte) (n off len : Nat),
    (n < off + len → find inp n off len = 0) ∧
      (∀ d : Nat, off + len ≤ n → 0 < d →
        (find inp n off len = d ↔
          Config.minSearchDistance ≤ d ∧ d ≤ Config.maxDistance ∧ d ≤ off ∧ candidate inp off len d ∧
            ∀ e : Nat, Config.minSearchDistance ≤ e → e < d → ¬ candidate inp off len e))

/-- A match at some length gives a match, at most as far, at every shorter length; no match gives none at a greater
length. The spec derives this in R111 items 2 and 3. -/
def Obligations.FindMonotoneInLength : Prop :=
  ∀ (inp : Nat → Byte) (n off len len' : Nat), len' ≤ len →
    (0 < find inp n off len → 0 < find inp n off len' ∧ find inp n off len' ≤ find inp n off len) ∧
      (find inp n off len' = 0 → find inp n off len = 0)

/-- select reads input bytes only, so it depends only on In[0..N). The spec derives this in R110. -/
def Obligations.SelectReadsOnlyInput : Prop :=
  ∀ (inp inp' : Nat → Byte) (n off : Nat), off < n → (∀ i < n, inp i = inp' i) → select inp n off = select inp' n off

/-- The cursor advance (R123): by 1 after a literal, by the length after a match, never past the input. -/
def Obligations.SelectAdvances : Prop :=
  ∀ (inp : Nat → Byte) (n off : Nat), off < n →
    (∀ b : Byte, (select inp n off).1 = .literal b → (select inp n off).2 = off + 1) ∧
      (∀ length distance : Nat,
        (select inp n off).1 = .backRef length distance → (select inp n off).2 = off + length ∧ off + length ≤ n) ∧
      off < (select inp n off).2 ∧ (select inp n off).2 ≤ n

/-- The probe sequence: lengths from 3 up to the first failure or 18, and the pair of the last success is kept (R121,
R122). -/
def Obligations.SelectKeepsLastSuccess : Prop :=
  ∀ (inp : Nat → Byte) (n off : Nat),
    ((select inp n off).1 = .literal (inp off) ↔ find inp n off Config.minMatch = 0) ∧
      ∀ length distance : Nat,
        ((select inp n off).1 = .backRef length distance ↔
          Config.minMatch ≤ length ∧ length ≤ Config.maxMatch ∧
            (∀ l : Nat, Config.minMatch ≤ l → l ≤ length → 0 < find inp n off l) ∧
            distance = find inp n off length ∧ (length = Config.maxMatch ∨ find inp n off (length + 1) = 0))

/-- select keeps the last success: the greatest length with a match, at that length's nearest distance. The spec derives
this closed form in R125. -/
def Obligations.SelectIsLongestMatch : Prop :=
  ∀ (inp : Nat → Byte) (n off length distance : Nat), off < n →
    (select inp n off = (.backRef length distance, off + length) ↔
      Config.minMatch ≤ length ∧ length ≤ Config.maxMatch ∧ 0 < distance ∧ find inp n off length = distance ∧
        ∀ l : Nat, length < l → l ≤ Config.maxMatch → find inp n off l = 0)

/-- The tokens of an input stand for the input: expanding them, as the glossary says a match is read, gives it back. The
expansion is the model's own rendering of the glossary's Match (R12); decoding is out of scope (R5). -/
def Obligations.TokensRebuildInput : Prop := ∀ bytes : List Byte, expand (tokensOf bytes) [] = bytes

/-! ### The writers -/

/-- append checks the capacity before any write and writes all or nothing (R160, R161). The fault, in a state whose output
region leaves the address space, is the model's: assumption 9. -/
def Obligations.AppendAllOrNothing : Prop :=
  ∀ (bs : List Byte) (s : State), bs ≠ [] →
    (s.cap < s.cursor + bs.length → s.append bs = .raise .outputExhausted s) ∧
      (s.cursor + bs.length ≤ s.cap → s.outRegion.fits = true →
        ∃ t : State, s.append bs = .ok t ∧ t = { s with mem := t.mem, cursor := s.cursor + bs.length } ∧
          (s.mem.wf → ∀ i < bs.length, t.mem.read (s.outAt (s.cursor + i)) = bs.getD i 0) ∧
          ∀ a : Nat, (a < s.outAt s.cursor ∨ s.outAt (s.cursor + bs.length) ≤ a) → t.mem.read a = s.mem.read a)

/-- HEADER: the four bytes, the cursors and the phase where it fits; OutputExhausted where it does not (R173). -/
def Obligations.HeaderStep : Prop :=
  ∀ (n : Nat) (s : State), n ≤ Config.maxInputLength →
    (s.cursor + 4 ≤ s.cap → s.outRegion.fits = true →
      exec (.header n) s = .next
        { s with
          mem := s.mem.writeBytes (s.outAt s.cursor)
            [0x10, BitVec.ofNat 8 n, BitVec.ofNat 8 (n / 256), BitVec.ofNat 8 (n / 65536)],
          cursor := s.cursor + 4, off := 0, count := 0, flagVal := 0, phase := .token }) ∧
      (s.cap < s.cursor + 4 → exec (.header n) s = .next (exhausted s))

/-- FLAG with no group open reserves the flag byte as 0x00 (R141), or ends the job where it does not fit. That the row
stands for the reservation and for the write-back is the model's reading: assumption 13. -/
def Obligations.FlagReserves : Prop :=
  ∀ (f : Byte) (s : State), s.count = 0 →
    (s.cursor + 1 ≤ s.cap → s.outRegion.fits = true → exec (.flag f) s = .next (opened s)) ∧
      (s.cap < s.cursor + 1 → exec (.flag f) s = .next (exhausted { s with flagPos := s.cursor }))

/-- FLAG in an open group writes the flag byte at its reserved place and closes the group; it makes no capacity check and
does not move the cursor (R145, R146). Assumption 13 as above. -/
def Obligations.FlagWritesBack : Prop :=
  ∀ (f : Byte) (s : State), 0 < s.count → s.flagPos < s.cap → s.outRegion.fits = true →
    exec (.flag f) s = .next { s with mem := s.mem.write (s.outAt s.flagPos) f, count := 0, flagVal := 0 }

/-- LIT: group open, one byte, count, group close (R141, R142, R144, R145, R147), then the input cursor (R174, R123);
OutputExhausted where the reservation or the byte does not fit (R150). That the row's meaning is the whole emit and the
move of the input cursor is the model's reading: assumption 15. -/
def Obligations.LiteralStep : Prop :=
  ∀ (b : Byte) (s : State), s.outRegion.fits = true → (0 < s.count → s.flagPos < s.cursor) →
    ((opened s).cursor + 1 ≤ s.cap →
      exec (.lit b) s = .next
        { closed (s.off + 1)
            { opened s with
              mem := (opened s).mem.write (s.outAt (opened s).cursor) b,
              cursor := (opened s).cursor + 1, count := s.count + 1 } with
          off := s.off + 1 }) ∧
      (s.count = 0 → s.cap < s.cursor + 1 → exec (.lit b) s = .next (exhausted { s with flagPos := s.cursor })) ∧
      ((s.count = 0 → s.cursor + 1 ≤ s.cap) → s.cap < (opened s).cursor + 1 →
        exec (.lit b) s = .next (exhausted (opened s)))

/-- MATCH: group open, two bytes as one append, the flag bit (7 - count), count, group close (R141, R143, R144, R145,
R147), then the input cursor (R174, R123); OutputExhausted where the reservation or the two bytes do not fit (R150). That
the row's meaning is the whole emit and the move of the input cursor is the model's reading: assumption 15. -/
def Obligations.MatchStep : Prop :=
  ∀ (length distance : Nat) (s : State), Config.minMatch ≤ length → length ≤ Config.maxMatch → 1 ≤ distance →
    distance ≤ Config.maxDistance → s.outRegion.fits = true → (0 < s.count → s.flagPos < s.cursor) →
    ((opened s).cursor + 2 ≤ s.cap →
      exec (.backRef length distance) s = .next
        { closed (s.off + length)
            { opened s with
              mem := ((opened s).mem.write (s.outAt (opened s).cursor)
                  (BitVec.ofNat 8 ((length - 3) * 16 + (distance - 1) / 256))).write
                (s.outAt (opened s).cursor + 1) (BitVec.ofNat 8 ((distance - 1) % 256)),
              cursor := (opened s).cursor + 2, count := s.count + 1,
              flagVal := (opened s).flagVal ||| ((1 : Byte) <<< (7 - s.count)) } with
          off := s.off + length }) ∧
      (s.count = 0 → s.cap < s.cursor + 1 →
        exec (.backRef length distance) s = .next (exhausted { s with flagPos := s.cursor })) ∧
      ((s.count = 0 → s.cursor + 1 ≤ s.cap) → s.cap < (opened s).cursor + 2 →
        exec (.backRef length distance) s = .next (exhausted (opened s)))

/-- PAD: at a multiple of 4 the job completes with RESULT = cursor; otherwise one byte 0x00 is appended, or the job ends
with OutputExhausted (R176). At most 3 bytes bring the count to a multiple of 4. -/
def Obligations.PadStep : Prop :=
  ∀ s : State,
    (s.cursor % Config.padMultiple = 0 →
      exec .pad s = .next
        { s with result := BitVec.ofNat 32 s.cursor, err := 0b00, busy := false, done := true, phase := .idle }) ∧
      (s.cursor % Config.padMultiple ≠ 0 → s.cursor + 1 ≤ s.cap → s.outRegion.fits = true →
        exec .pad s = .next { s with mem := s.mem.write (s.outAt s.cursor) 0x00, cursor := s.cursor + 1 }) ∧
      (s.cursor % Config.padMultiple ≠ 0 → s.cap < s.cursor + 1 → exec .pad s = .next (exhausted s)) ∧
      padCount s.cursor ≤ 3 ∧ (s.cursor + padCount s.cursor) % Config.padMultiple = 0

/-! ### The host's register accesses -/

/-- An accepted START (R191). -/
def Obligations.StartAccepted : Prop :=
  ∀ (v : Word) (s : State), v.getLsbD 0 = true → s.busy = false →
    exec (.wrCtrlStart v) s = .next
      { s with busy := true, done := false, err := 0b00, result := 0, off := 0, cursor := 0, flagPos := 0, flagVal := 0,
               count := 0, phase := .validate }

/-- A write of CTRL with bit 0 set while BUSY = 1 has no effect (R192), and one with bit 0 clear has none in any state
(R193). -/
def Obligations.OtherCtrlWritesIgnored : Prop :=
  ∀ (v : Word) (s : State),
    (v.getLsbD 0 = true → s.busy = true → exec (.wrCtrlBusy v) s = .next s) ∧
      (v.getLsbD 0 = false → exec (.wrCtrlNoStart v) s = .next s)

/-- RD CTRL returns 0, and nothing else happens (R194). -/
def Obligations.ReadCtrl : Prop := ∀ s : State, exec .rdCtrl s = .next { s with rdata := 0x00000000 }

/-- RD STATUS returns BUSY in bit 0, DONE in bit 1, ERR in bits 3:2 and 0 above, and clears nothing (R195); WR STATUS has
no effect (R196). -/
def Obligations.StatusAccess : Prop :=
  ∀ s : State,
    (∃ w : Word, exec .rdStatus s = .next { s with rdata := w } ∧
      w.toNat = s.err.toNat * 4 + s.done.toNat * 2 + s.busy.toNat) ∧
      ∀ v : Word, exec (.wrStatus v) s = .next s

/-- RD RESULT returns RESULT, which is 0 while a job runs; WR RESULT has no effect (R197, R236). -/
def Obligations.ResultAccess : Prop :=
  (∀ s : State, exec .rdResult s = .next { s with rdata := s.result }) ∧
    (∀ s : State, Inv s → s.busy = true → exec .rdResult s = .next { s with rdata := 0 }) ∧
    ∀ (v : Word) (s : State), exec (.wrResult v) s = .next s

/-- A write of an argument register stores all 32 bits while BUSY = 0 and has no effect while BUSY = 1 (R198). -/
def Obligations.ArgumentWrite : Prop :=
  ∀ (v : Word) (s : State),
    (s.busy = false →
      exec (.wrArg .inAddr v) s = .next { s with inAddr := v } ∧ exec (.wrArg .inLen v) s = .next { s with inLen := v } ∧
        exec (.wrArg .outAddr v) s = .next { s with outAddr := v } ∧
        exec (.wrArg .outCap v) s = .next { s with outCap := v }) ∧
      (s.busy = true → ∀ r : ArgReg, exec (.wrArg r v) s = .next s)

/-- A read of an argument register returns its 32 bits, with no side effect (R199). -/
def Obligations.ArgumentRead : Prop :=
  ∀ s : State,
    exec (.rdArg .inAddr) s = .next { s with rdata := s.inAddr } ∧
      exec (.rdArg .inLen) s = .next { s with rdata := s.inLen } ∧
      exec (.rdArg .outAddr) s = .next { s with rdata := s.outAddr } ∧
      exec (.rdArg .outCap) s = .next { s with rdata := s.outCap }

/-- Offset 0x1C reads 0 and ignores writes (R200). -/
def Obligations.ReservedOffset : Prop :=
  ∀ s : State,
    exec (.reserved .read) s = .next { s with rdata := 0x00000000 } ∧
      ∀ v : Word, exec (.reserved (.write v)) s = .next s

/-- The STATUS word and RESULT after each way a job can end: the two errors (R220) and completion (R177). -/
def Obligations.EndOfJobCodes : Prop :=
  ∀ s : State,
    ((s.terminate .invalidArgument).statusWord = 0x00000006 ∧ (s.terminate .invalidArgument).result = 0xFFFFFFFF) ∧
      ((s.terminate .outputExhausted).statusWord = 0x0000000A ∧ (s.terminate .outputExhausted).result = 0xFFFFFFFE) ∧
      (s.complete.statusWord = 0x00000002 ∧ s.complete.result = BitVec.ofNat 32 s.cursor)

/-! ### Frames -/

/-- Every byte of memory that an instruction does not store to reads as before. The stored addresses are computed from
the state and the instruction. -/
def Obligations.MemoryFrame : Prop :=
  ∀ (i : Instr) (s t : State), exec i s = .next t → ∀ a : Nat, storesAt i s a = false → t.mem.read a = s.mem.read a

/-- What no instruction changes, and what each shape of instruction leaves alone. A stream element changes no argument
register; its changes of STATUS, RESULT and phase are the header's `phase`, or the end of the job. A host read changes
`rdata` alone. A host write changes no memory and no `rdata`. -/
def Obligations.RegisterFrame : Prop :=
  ∀ (i : Instr) (s t : State), exec i s = .next t →
    (t.hostOps = s.hostOps ∧ t.sched = s.sched ∧ t.devices = s.devices ∧ t.freeCtr = s.freeCtr) ∧
      (isElement i = true →
        t.inAddr = s.inAddr ∧ t.inLen = s.inLen ∧ t.outAddr = s.outAddr ∧ t.outCap = s.outCap ∧ t.rdata = s.rdata ∧
          ((t.busy = s.busy ∧ t.done = s.done ∧ t.err = s.err ∧ t.result = s.result ∧
              (t.phase = s.phase ∨ (∃ n : Nat, i = .header n) ∧ t.phase = .token)) ∨
            (t.busy = false ∧ t.done = true ∧ t.phase = .idle ∧
              ((t.err = 0b10 ∧ t.result = Config.errOutputExhausted) ∨ (i = .pad ∧ t.err = 0b00 ∧ t.result = BitVec.ofNat 32 s.cursor))))) ∧
      (isHostRead i = true → t = { s with rdata := t.rdata }) ∧
      (isElement i = false → isHostRead i = false → t.mem = s.mem ∧ t.rdata = s.rdata)

/-! ### The step -/

/-- On the host's turn, an access that decodes runs as its instruction, with the turn and the operation used up. -/
def Obligations.StepRunsHostAccess : Prop :=
  ∀ (s : State) (a : Access) (rest : List HostOp) (i : Instr),
    s.turn = .host → s.hostOps = .access a :: rest → decodeAccess s.busy a = .ok i →
      step s = exec i { s with sched := s.sched.tail, hostOps := rest }

/-- On the engine's turn, the element its phase selects runs as its instruction, with the turn used up. The premise on the
input region is what VALIDATE has made sure of; without it the TOKEN step faults (assumption 9). -/
def Obligations.StepRunsEngineElement : Prop :=
  ∀ (s : State) (i : Instr), s.turn = .engine → s.engineElement = some i → s.inRegion.fits = true →
    step s = exec i { s with sched := s.sched.tail }

/-- An access that is not aligned or not 32 bits wide spells no operation: the machine refuses it (R202). -/
def Obligations.MalformedAccessRefused : Prop :=
  ∀ (s : State) (a : Access) (rest : List HostOp),
    s.turn = .host → s.hostOps = .access a :: rest → (a.width ≠ 4 ∨ a.offset.toNat % 4 ≠ 0) →
      ∃ e : DecodeError, step s = .refused (.malformedAccess e)

/-- VALIDATE evaluates every condition of InvalidArgument, ends the job with it if one holds, and goes on to the header
otherwise; it touches no memory (R211, R212, R214, R215). The premise leaves out regions on a device (R239). -/
def Obligations.ValidateDecides : Prop :=
  ∀ s : State, s.phase = .validate → s.regionOnDevice = false →
    ((s.inAddr = 0 ∧ s.inLen ≠ 0) ∨ (s.outAddr = 0 ∧ s.outCap ≠ 0) ∨ Config.maxInputLength < s.inLen.toNat ∨
        (s.inLen ≠ 0 ∧ s.outCap ≠ 0 ∧ s.inAddr.toNat < s.outAddr.toNat + s.outCap.toNat ∧
          s.outAddr.toNat < s.inAddr.toNat + s.inLen.toNat) ∨
        2 ^ 32 < s.inAddr.toNat + s.inLen.toNat ∨ 2 ^ 32 < s.outAddr.toNat + s.outCap.toNat →
      engineStep s = .next (invalid s)) ∧
      (¬ ((s.inAddr = 0 ∧ s.inLen ≠ 0) ∨ (s.outAddr = 0 ∧ s.outCap ≠ 0) ∨ Config.maxInputLength < s.inLen.toNat ∨
          (s.inLen ≠ 0 ∧ s.outCap ≠ 0 ∧ s.inAddr.toNat < s.outAddr.toNat + s.outCap.toNat ∧
            s.outAddr.toNat < s.inAddr.toNat + s.inLen.toNat) ∨
          2 ^ 32 < s.inAddr.toNat + s.inLen.toNat ∨ 2 ^ 32 < s.outAddr.toNat + s.outCap.toNat) →
        engineStep s = .next { s with phase := .header })

/-- The step relation of R172: which phase can follow which, and that IDLE has no step. The TOKEN step at off = N ends the
main loop and does nothing else (the first branch of R174). -/
def Obligations.EnginePhases : Prop :=
  (∀ s t : State, Inv s → engineStep s = .next t →
    (s.phase = .idle → t = s) ∧
      (s.phase = .validate → t.phase = .header ∨ (t.phase = .idle ∧ t.err = 0b01)) ∧
      (s.phase = .header → t.phase = .token ∨ (t.phase = .idle ∧ t.err = 0b10)) ∧
      (s.phase = .token → t.phase = .token ∨ (t.phase = .pad ∧ s.off = s.n) ∨ (t.phase = .idle ∧ t.err = 0b10)) ∧
      (s.phase = .pad → t.phase = .pad ∨ (t.phase = .idle ∧ (t.err = 0b00 ∨ t.err = 0b10)))) ∧
    ∀ s : State, s.phase = .token → s.off = s.n → engineStep s = .next { s with phase := .pad }

/-- What the engine emits is well formed, and a match never has a distance below 8 (R79, R108). -/
def Obligations.EngineEmitsWellFormed : Prop :=
  ∀ (s : State) (i : Instr), Inv s → s.engineElement = some i →
    i.wf = true ∧ ∀ length distance : Nat, i = .backRef length distance → Config.minSearchDistance ≤ distance

/-- While a job runs, a host step other than a reset leaves the job alone: its registers, its internal state and the bytes
of both regions stay (R192, R198, R234, R235). -/
def Obligations.HostCannotDisturbJob : Prop :=
  ∀ (s t : State), s.busy = true → s.turn = .host → (∀ rest : List HostOp, s.hostOps ≠ .resetBlock :: rest) →
    step s = .next t → sameJob s t ∧ ∀ a : Nat, inJobRegion s a = true → t.mem.read a = s.mem.read a

/-- A host write of a byte of either region while BUSY = 1 is no move of the host: the machine refuses it (R234, R235).
Bytes of devices are refused under another name (assumption 8). -/
def Obligations.HostWriteDuringJobRefused : Prop :=
  ∀ (s : State) (a : Word) (v : Byte) (rest : List HostOp),
    s.turn = .host → s.hostOps = .memWrite a v :: rest → s.busy = true → inJobRegion s a.toNat = true →
      s.isDevice a.toNat = false → step s = .refused .hostWriteDuringJob

/-- A host read of the output region while BUSY = 1 completes and changes nothing but what the host gets, which is left
open (R235), and the count of open values. -/
def Obligations.OutputReadDuringJobOpen : Prop :=
  ∀ (s : State) (a : Word) (rest : List HostOp),
    s.turn = .host → s.hostOps = .memRead a :: rest → s.busy = true → s.outRegion.contains a.toNat = true →
      s.isDevice a.toNat = false →
        step s = .next
          { s with rdata := (Config.freeByte s.freeCtr).zeroExtend 32, freeCtr := s.freeCtr + 1,
                   sched := s.sched.tail, hostOps := rest }

/-- A launch with valid arguments whose regions map a device is refused (R239). -/
def Obligations.DeviceLaunchRefused : Prop :=
  ∀ s : State, s.phase = .validate → s.argsInvalid = false → s.regionOnDevice = true →
    engineStep s = .refused .deviceRegion

/-- The host's own use of system memory while no job runs: a write stores the byte and a read returns the last byte stored
(R60). -/
def Obligations.HostMemoryReadsBack : Prop :=
  ∀ (s : State) (a : Word) (v : Byte) (rest : List HostOp),
    s.turn = .host → s.busy = false → s.isDevice a.toNat = false →
      (s.mem.wf → s.hostOps = .memWrite a v :: rest →
        ∃ t : State, step s = .next t ∧ t = { s with mem := t.mem, sched := s.sched.tail, hostOps := rest } ∧
          t.mem.read a.toNat = v ∧ ∀ b : Nat, b ≠ a.toNat → t.mem.read b = s.mem.read b) ∧
      (s.hostOps = .memRead a :: rest →
        step s = .next
          { s with rdata := (s.mem.read a.toNat).zeroExtend 32, sched := s.sched.tail, hostOps := rest })

/-- DONE and the result stay until the next accepted START or a reset (R24, R222). -/
def Obligations.ResultStaysUntilStart : Prop :=
  ∀ s t : State, Inv s → s.done = true → step s = .next t →
    (t.done = true ∧ t.err = s.err ∧ t.result = s.result) ∨
      (s.turn = .host ∧ (nextIsStart s ∨ ∃ rest : List HostOp, s.hostOps = .resetBlock :: rest))

/-! ### Reset -/

/-- The values the spec gives for reset (R36); memory and the model's own fields are not among them. -/
def Obligations.ResetValues : Prop :=
  State.reset.inAddr = 0 ∧ State.reset.inLen = 0 ∧ State.reset.outAddr = 0 ∧ State.reset.outCap = 0 ∧
    State.reset.statusWord = 0 ∧ State.reset.result = 0 ∧ State.reset.phase = .idle ∧ State.reset.off = 0 ∧
    State.reset.cursor = 0 ∧ State.reset.flagPos = 0 ∧ State.reset.flagVal = 0 ∧ State.reset.count = 0

/-- A reset of the block, in any state: every register and internal element takes its reset value, no memory is written
outside the output region of an abandoned job, and none at all in IDLE (R230, R231). -/
def Obligations.BlockReset : Prop :=
  ∀ (s : State) (rest : List HostOp), s.turn = .host → s.hostOps = .resetBlock :: rest →
    ∃ t : State, step s = .next t ∧ t.hostOps = rest ∧
      (t.inAddr = 0 ∧ t.inLen = 0 ∧ t.outAddr = 0 ∧ t.outCap = 0 ∧ t.busy = false ∧ t.done = false ∧ t.err = 0 ∧
        t.result = 0 ∧ t.phase = .idle ∧ t.off = 0 ∧ t.cursor = 0 ∧ t.flagPos = 0 ∧ t.flagVal = 0 ∧ t.count = 0) ∧
      (s.phase = .idle → t.mem = s.mem) ∧ onlyOutputWritten s t

/-! ### Invariant, safety, termination -/

/-- The invariant holds at reset. Its clause on memory rests on the model's choice that nothing is listed: assumption 1. -/
def Obligations.InvariantAtReset : Prop := Inv State.reset

/-- Every step keeps the invariant, from every state that meets it. -/
def Obligations.InvariantKept : Prop := ∀ s t : State, Inv s → step s = .next t → Inv t

/-- No step faults: every address a job touches exists. The spec derives this in R54. -/
def Obligations.NoFault : Prop := ∀ (s : State) (f : Fault), Inv s → step s ≠ .fault f

/-- During a job past VALIDATE no input byte is also an output byte, and every In[i] and Out[j] names an existing address.
The spec derives this in R54. -/
def Obligations.RegionsDisjoint : Prop :=
  ∀ (s : State) (i j : Nat), Inv s → s.pastValidate = true → i < s.n → j < s.cap →
    s.inAt i ≠ s.outAt j ∧ s.inAt i < 2 ^ 32 ∧ s.outAt j < 2 ^ 32

/-- The engine never writes system memory outside the output region, never past the cursor, and never the input
(R51, R53). -/
def Obligations.EngineWritesOnlyOutput : Prop :=
  ∀ s t : State, Inv s → engineStep s = .next t →
    onlyOutputWritten s t ∧ (∀ j : Nat, t.cursor ≤ j → t.outByte j = s.outByte j) ∧
      (s.pastValidate = true → ∀ i < s.n, t.inByte i = s.inByte i)

/-- Every job terminates: with the engine taking its turns, at most N - off token steps and a few more end it (R15). From
VALIDATE the premise leaves out regions on a device. -/
def Obligations.JobTerminates : Prop :=
  ∀ s : State, Inv s → s.busy = true → s.sched = [] → (s.phase = .validate → s.regionOnDevice = false) →
    ∃ (k : Nat) (t : State), k ≤ (s.n - s.off) + 7 ∧ run k s = .next t ∧ t.phase = .idle ∧ t.done = true

/-- WAIT_DONE repeats the read of STATUS until DONE reads 1 (R82), ends whenever a job has been started, whatever the
schedule (R203), and with it ends the run, at the first STATUS read with DONE = 1 after the accepted START (R204). The
premises leave out regions on a device. The schedule, the host's list and the output region of a run's end are the model's
own: assumptions 2, 3 and 24. -/
def Obligations.WaitDoneEnds : Prop :=
  (∀ (s : State) (rest : List HostOp), s.turn = .host → s.hostOps = .waitDone :: rest →
    (s.done = false → step s = .next { s with rdata := s.statusWord, sched := s.sched.tail }) ∧
      (s.done = true → step s = .next { s with rdata := s.statusWord, sched := s.sched.tail, hostOps := rest })) ∧
  (∀ (s : State) (rest : List HostOp), Inv s → (s.busy = true ∨ s.done = true) →
    (s.phase = .validate → s.regionOnDevice = false) → s.hostOps = .waitDone :: rest →
      ∃ (k : Nat) (u t : State), k ≤ s.sched.length + (s.n - s.off) + 7 ∧ run k s = .next u ∧ u.readsDone = true ∧
        (∀ j < k, ∀ v : State, run j s = .next v → v.readsDone = false ∧ v.hostOps = s.hostOps) ∧
        step u = .next t ∧ t.hostOps = rest ∧ t.done = true ∧ t.rdata = t.statusWord) ∧
  ∀ (s : State) (op : HostOp) (rest : List HostOp), Inv s → s.acceptsStart = true → s.hostOps = op :: .waitDone :: rest →
    s.regionOnDevice = false →
      ∃ (k : Nat) (u : State), run k s = .next u ∧ u.readsDone = true ∧
        (∀ j < k, ∀ v : State, run j s = .next v → v.readsDone = false) ∧
        ∀ l : Nat, k ≤ l →
          runToEnd l none s =
            .next (.ended { status := u.statusWord, result := u.result, output := s.outRegion.bytes u.mem })

/-! ### The whole job -/

/-- The reference function gives the stream of R70 on the selected tokens exactly when it fits, and otherwise stops with at
most `cap` bytes written. The spec derives this in R178 and R184. -/
def Obligations.ReferenceGivesStream : Prop :=
  ∀ (bytes : List Byte) (cap : Nat),
    (requirement bytes ≤ cap → compress bytes cap = .ok (streamOf bytes.length (tokensOf bytes))) ∧
      (cap < requirement bytes → ∃ w : List Byte, compress bytes cap = .error w ∧ w.length ≤ cap)

/-- The whole job equals the reference function: RESULT, STATUS and memory at the end are the ones it gives. The spec
derives this in R178. -/
def Obligations.JobEqualsReference : Prop :=
  ∀ s : State, CleanLaunch s → s.argsInvalid = false →
    (∀ out : List Byte, compress s.inputBytes s.cap = .ok out →
      ∃ (k : Nat) (t : State), run k s = .next t ∧ t.phase = .idle ∧ t.done = true ∧ t.err = 0b00 ∧
        t.result.toNat = out.length ∧ t.outputBytes out.length = out ∧
        ∀ a : Nat, (a < s.outAt 0 ∨ s.outAt out.length ≤ a) → t.mem.read a = s.mem.read a) ∧
      ∀ w : List Byte, compress s.inputBytes s.cap = .error w →
        ∃ (k : Nat) (t : State), run k s = .next t ∧ t.phase = .idle ∧ t.done = true ∧ t.err = 0b10 ∧
          t.result = Config.errOutputExhausted ∧ t.outputBytes w.length = w ∧
          ∀ a : Nat, (a < s.outAt 0 ∨ s.outAt w.length ≤ a) → t.mem.read a = s.mem.read a

/-- CompressBound(N) = 4 + 2*N + 3 (R182), and a job with at least that capacity never runs out of output and stays within
it. The spec derives the latter in R183. -/
def Obligations.CompressBoundSuffices : Prop :=
  (∀ n : Nat, compressBound n = 4 + 2 * n + 3) ∧
    ∀ (bytes : List Byte) (cap : Nat), compressBound bytes.length ≤ cap →
      ∃ out : List Byte, compress bytes cap = .ok out ∧ out.length ≤ compressBound bytes.length

/-- No input of length N needs more than the all-literal stream (R184). -/
def Obligations.AllLiteralIsLongest : Prop :=
  ∀ bytes : List Byte,
    requirement bytes ≤ (4 + bytes.length + (bytes.length + 7) / 8 + 3) / 4 * 4 ∧
      ((∀ tok ∈ tokensOf bytes, tok.isMatch = false) →
        requirement bytes = (4 + bytes.length + (bytes.length + 7) / 8 + 3) / 4 * 4)

/-- A successful stream has a length that is a positive multiple of 4, and its first word gives the tag and N (R180). -/
def Obligations.StreamShape : Prop :=
  ∀ (bytes out : List Byte) (cap : Nat), bytes.length ≤ Config.maxInputLength → compress bytes cap = .ok out →
    out.length % Config.padMultiple = 0 ∧ 4 ≤ out.length ∧ leNat (out.take 4) % 256 = Config.formatTag ∧ leNat (out.take 4) / 256 = bytes.length
end

