-- ==== Sys2Proof/Laws/Finder.lean ====
section
/-! SUPPORT. The MatchFinder's candidate test and scan as propositions, and one unfolding of each loop. -/

namespace Sys2Proof.Machine

/-- The candidate test says that the two runs agree byte by byte (R105). -/
theorem runsEqual_iff (inp : Nat → Byte) (c off len : Nat) :
    runsEqual inp c off len = true ↔ ∀ i < len, inp (c + i) = inp (off + i) := by
  simp [runsEqual]

/-- The candidate test looks at the two runs only (R110). -/
theorem runsEqual_congr {inp inp' : Nat → Byte} {c off len n : Nat} (h : ∀ i < n, inp i = inp' i) (hc : c ≤ off)
    (hn : off + len ≤ n) : runsEqual inp c off len = runsEqual inp' c off len := by
  rw [Bool.eq_iff_iff, runsEqual_iff, runsEqual_iff]
  refine forall₂_congr fun i hi => ?_
  rw [h (c + i) (by omega), h (off + i) (by omega)]

/-- The scan stops past the window (R103). -/
theorem scanFrom_past_window (inp : Nat → Byte) (off len k d : Nat) (h : Config.maxDistance < d) :
    scanFrom inp off len k d = 0 := by
  cases k with
  | zero => rfl
  | succ k => rw [scanFrom, if_pos (Nat.sub_lt_sub_right (by decide) h)]

/-- The scan stops at the start of the buffer (R104). -/
theorem scanFrom_past_start (inp : Nat → Byte) (off len k d : Nat) (h : off < d) : scanFrom inp off len k d = 0 := by
  cases k with
  | zero => rfl
  | succ k =>
    simp only [scanFrom, if_pos (show d > off from h), ite_self]

/-- Inside both limits the scan tests the candidate and goes on to the next distance otherwise (R102, R106). -/
theorem scanFrom_succ (inp : Nat → Byte) (off len k d : Nat) (h1 : d ≤ Config.maxDistance) (h2 : d ≤ off) :
    scanFrom inp off len (k + 1) d =
      if runsEqual inp (off - d) off len then d else scanFrom inp off len k (d + 1) := by
  rw [scanFrom, if_neg (not_lt.2 (Nat.sub_le_sub_right h1 1)), if_neg (not_lt.2 h2)]

/-- The room check (R101). -/
theorem find_no_room (inp : Nat → Byte) (n off len : Nat) (h : n < off + len) : find inp n off len = 0 := by
  simp [find, h]

/-- With room, find is the scan from distance 8. -/
theorem find_room (inp : Nat → Byte) (n off len : Nat) (h : off + len ≤ n) :
    find inp n off len = scanFrom inp off len (Config.maxDistance + 1) Config.minSearchDistance := by
  simp [find, not_lt.2 h]

@[simp] theorem probeLengths_zero (inp : Nat → Byte) (n off len : Nat) (best : Nat × Nat) :
    probeLengths inp n off 0 len best = best := rfl

theorem probeLengths_succ (inp : Nat → Byte) (n off k len : Nat) (best : Nat × Nat) :
    probeLengths inp n off (k + 1) len best =
      if find inp n off len = 0 then best else probeLengths inp n off k (len + 1) (len, find inp n off len) := rfl

end Sys2Proof.Machine
end

