-- ==== Sys2Proof/Laws/Memory.lean ====
section
/-! SUPPORT. The laws of system memory: read after write, and that every memory operation keeps the canonical form. -/

namespace Sys2Proof.Machine

@[simp] theorem Memory.read_nil (a : Nat) : Memory.read [] a = Memory.unlistedByte := rfl

@[simp] theorem Memory.read_cons (b : Nat) (w : Byte) (m : Memory) (a : Nat) :
    Memory.read ((b, w) :: m) a = if b = a then w else Memory.read m a := rfl

@[simp] theorem Memory.writeBytes_nil (m : Memory) (a : Nat) : Memory.writeBytes m a [] = m := rfl

@[simp] theorem Memory.writeBytes_cons (m : Memory) (a : Nat) (b : Byte) (bs : List Byte) :
    Memory.writeBytes m a (b :: bs) = Memory.writeBytes (Memory.write m a b) (a + 1) bs := rfl

@[simp] theorem Memory.scramble_zero (m : Memory) (a ctr : Nat) : Memory.scramble m a ctr 0 = m := rfl

/-- An address below every listed one reads as unlisted. -/
theorem Memory.read_below {m : Memory} {a : Nat} (h : ∀ c ∈ m, a < c.1) : m.read a = Memory.unlistedByte := by
  induction m with
  | nil => rfl
  | cons c m ih =>
    obtain ⟨b, w⟩ := c
    have hb : a < b := h (b, w) (by simp)
    rw [Memory.read_cons, if_neg (by omega)]
    exact ih fun c hc => h c (by simp [hc])

theorem Memory.read_consCell (a : Nat) (v : Byte) (m : Memory) (x : Nat) (hm : m.read a = Memory.unlistedByte) :
    (Memory.consCell a v m).read x = if a = x then v else m.read x := by
  unfold Memory.consCell
  split
  · next hv => split <;> simp_all
  · simp

/-- A write leaves every other address alone; no premise is needed. -/
theorem Memory.read_write_other {a x : Nat} (h : a ≠ x) (m : Memory) (v : Byte) : (m.write a v).read x = m.read x := by
  induction m with
  | nil => simp only [Memory.write, Memory.consCell]; split <;> simp [h]
  | cons c m ih =>
    obtain ⟨b, w⟩ := c
    simp only [Memory.write, Memory.consCell]
    split
    · split <;> simp [h]
    · split
      · next hab => subst hab; split <;> simp [h]
      · simp [ih]

/-- A read after a write to the same address gives the byte written (R60). -/
theorem Memory.read_write_same {m : Memory} (hm : m.wf) (a : Nat) (v : Byte) : (m.write a v).read a = v := by
  obtain ⟨hs, -⟩ := hm
  induction m with
  | nil => simp only [Memory.write]; rw [Memory.read_consCell _ _ _ _ rfl]; simp
  | cons c m ih =>
    obtain ⟨b, w⟩ := c
    rw [List.pairwise_cons] at hs
    simp only [Memory.write]
    split
    · next hab =>
      rw [Memory.read_consCell _ _ _ _ (Memory.read_below _)]
      · simp
      · intro c hc
        rcases List.mem_cons.1 hc with rfl | hc
        · exact hab
        · exact hab.trans (hs.1 c hc)
    · split
      · next hab =>
        subst hab
        rw [Memory.read_consCell _ _ _ _ (Memory.read_below hs.1)]
        simp
      · next h1 h2 => simp [ih hs.2, show b ≠ a from fun h => h2 h.symm]

/-- Reading any address after a write. -/
theorem Memory.read_write {m : Memory} (hm : m.wf) (a x : Nat) (v : Byte) :
    (m.write a v).read x = if a = x then v else m.read x := by
  split
  · next h => subst h; exact Memory.read_write_same hm a v
  · next h => exact Memory.read_write_other h m v

theorem Memory.nil_wf : Memory.wf [] := by simp [Memory.wf]

/-- An entry of a written memory is an old entry or the one written. -/
theorem Memory.mem_write {m : Memory} {a : Nat} {v : Byte} {c : Host.Cell} (h : c ∈ m.write a v) :
    c ∈ m ∨ c = (a, v) ∧ v ≠ Memory.unlistedByte := by
  induction m with
  | nil =>
    simp only [Memory.write, Memory.consCell] at h
    split at h
    · simp at h
    · next hv => exact .inr ⟨by simpa using h, hv⟩
  | cons d m ih =>
    obtain ⟨b, w⟩ := d
    simp only [Memory.write, Memory.consCell] at h
    split at h
    · split at h
      · exact .inl h
      · next hv => rcases List.mem_cons.1 h with rfl | h
                   · exact .inr ⟨rfl, hv⟩
                   · exact .inl h
    · split at h
      · split at h
        · exact .inl (by simp [h])
        · next hv => rcases List.mem_cons.1 h with rfl | h
                     · exact .inr ⟨rfl, hv⟩
                     · exact .inl (by simp [h])
      · rcases List.mem_cons.1 h with rfl | h
        · exact .inl (by simp)
        · rcases ih h with h | h
          · exact .inl (by simp [h])
          · exact .inr h

/-- A write at an existing address keeps the canonical form. -/
theorem Memory.write_wf {m : Memory} (hm : m.wf) {a : Nat} (ha : a < Config.spaceSize) (v : Byte) :
    (m.write a v).wf := by
  refine ⟨?_, fun c hc => ?_⟩
  · obtain ⟨hs, -⟩ := hm
    induction m with
    | nil => simp only [Memory.write, Memory.consCell]; split <;> simp
    | cons d m ih =>
      obtain ⟨b, w⟩ := d
      have hs' := List.pairwise_cons.1 hs
      simp only [Memory.write, Memory.consCell]
      split
      · next hab =>
        split
        · exact hs
        · refine List.pairwise_cons.2 ⟨fun c hc => ?_, hs⟩
          rcases List.mem_cons.1 hc with rfl | hc
          · exact hab
          · exact hab.trans (hs'.1 c hc)
      · split
        · next hab =>
          subst hab
          split
          · exact hs'.2
          · exact List.pairwise_cons.2 ⟨hs'.1, hs'.2⟩
        · next h1 h2 =>
          refine List.pairwise_cons.2 ⟨fun c hc => ?_, ih hs'.2⟩
          rcases Memory.mem_write hc with hc | ⟨rfl, -⟩
          · exact hs'.1 c hc
          · exact lt_of_le_of_ne (not_lt.1 h1) (Ne.symm h2)
  · rcases Memory.mem_write hc with hc | ⟨rfl, hv⟩
    · exact hm.2 c hc
    · exact ⟨ha, hv⟩

/-- Bytes outside the stored range read as before. -/
theorem Memory.read_writeBytes_outside {a x : Nat} {bs : List Byte} (h : x < a ∨ a + bs.length ≤ x) (m : Memory) :
    (m.writeBytes a bs).read x = m.read x := by
  induction bs generalizing m a with
  | nil => rfl
  | cons b bs ih =>
    simp only [List.length_cons] at h
    rw [Memory.writeBytes_cons, ih (by omega), Memory.read_write_other (by omega)]

/-- Storing bytes at existing addresses keeps the canonical form. -/
theorem Memory.writeBytes_wf {m : Memory} (hm : m.wf) {a : Nat} {bs : List Byte}
    (h : a + bs.length ≤ Config.spaceSize) : (m.writeBytes a bs).wf := by
  induction bs generalizing m a with
  | nil => exact hm
  | cons b bs ih =>
    simp only [List.length_cons] at h
    exact ih (Memory.write_wf hm (by omega) b) (by omega)

/-- Byte `i` of what was stored reads back. -/
theorem Memory.read_writeBytes_inside {m : Memory} (hm : m.wf) {a : Nat} {bs : List Byte}
    (h : a + bs.length ≤ Config.spaceSize) {i : Nat} (hi : i < bs.length) :
    (m.writeBytes a bs).read (a + i) = bs.getD i 0 := by
  induction bs generalizing m a i with
  | nil => simp at hi
  | cons b bs ih =>
    simp only [List.length_cons] at h hi
    have hw : (m.write a b).wf := Memory.write_wf hm (by omega) b
    rw [Memory.writeBytes_cons]
    cases i with
    | zero => rw [Memory.read_writeBytes_outside (by omega)]; simpa using Memory.read_write_same hm a b
    | succ i =>
      have := ih (m := m.write a b) hw (a := a + 1) (by omega) (i := i) (by omega)
      simpa [Nat.add_assoc, Nat.add_comm 1 i] using this

/-- Free values go nowhere outside the range. -/
theorem Memory.read_scramble_outside {a x k : Nat} (h : x < a ∨ a + k ≤ x) (m : Memory) (ctr : Nat) :
    (m.scramble a ctr k).read x = m.read x := by
  induction k generalizing m a ctr with
  | zero => rfl
  | succ k ih =>
    unfold Memory.scramble
    split
    · rw [ih (by omega), Memory.read_write_other (by omega)]
    · rfl

/-- Free values keep the canonical form. -/
theorem Memory.scramble_wf {m : Memory} (hm : m.wf) (a ctr k : Nat) : (m.scramble a ctr k).wf := by
  induction k generalizing m a ctr with
  | zero => exact hm
  | succ k ih =>
    unfold Memory.scramble
    split
    · next ha => exact ih (Memory.write_wf hm ha _) _ _
    · exact hm

/-- A listed address reads as its byte. -/
theorem Memory.read_of_mem {m : Memory} (hm : m.wf) {c : Host.Cell} (hc : c ∈ m) : m.read c.1 = c.2 := by
  obtain ⟨hs, -⟩ := hm
  induction m with
  | nil => simp at hc
  | cons d m ih =>
    obtain ⟨b, w⟩ := d
    rw [List.pairwise_cons] at hs
    rcases List.mem_cons.1 hc with rfl | hc
    · simp
    · have := hs.1 c hc
      rw [Memory.read_cons, if_neg (by simp at this; omega)]
      exact ih hc hs.2

/-- The canonical form says everything: two memories in it that read alike are equal. -/
theorem Memory.ext_of_read {m q : Memory} (hm : m.wf) (hq : q.wf) (h : ∀ a, m.read a = q.read a) : m = q := by
  have mem_of : ∀ {m q : Memory}, m.wf → q.wf → (∀ a, m.read a = q.read a) → ∀ c ∈ m, c ∈ q := by
    intro m q hm hq h c hc
    have hr : q.read c.1 = c.2 := by rw [← h, Memory.read_of_mem hm hc]
    have hv := (hm.2 c hc).2
    clear h hm hc
    induction q with
    | nil => exact absurd hr.symm hv
    | cons d q ih =>
      obtain ⟨b, w⟩ := d
      by_cases hb : b = c.1
      · refine List.mem_cons.2 (.inl ?_)
        simp only [Memory.read_cons, if_pos hb] at hr
        rw [hr, hb]
      · simp only [Memory.read_cons, if_neg hb] at hr
        exact List.mem_cons_of_mem _ (ih ⟨(List.pairwise_cons.1 hq.1).2, fun c hc => hq.2 c (by simp [hc])⟩ hr)
  have nodup : ∀ {m : Memory}, m.wf → m.Nodup := fun hm =>
    hm.1.imp fun {c d} hcd h => by simp [h] at hcd
  have hp : m.Perm q :=
    (List.perm_ext_iff_of_nodup (nodup hm) (nodup hq)).2 fun c =>
      ⟨mem_of hm hq h c, mem_of hq hm (fun a => (h a).symm) c⟩
  exact hp.eq_of_pairwise (fun c d _ _ hcd hdc => absurd (hcd.trans hdc) (lt_irrefl _)) hm.1 hq.1

end Sys2Proof.Machine
end

