-- ==== Sys2Proof/Laws/PerInstr.lean ====
section
/-! SUPPORT. Laws stated for every instruction as syntax: an element has the width its row of spec/opcode_table.json gives,
and a register access is aligned and 32 bits wide (spec/30_encoding.md R80). -/

namespace Sys2Proof.Laws.EncodedWidth

/-- The bytes that a row of the table gives its element; a register access moves 4. -/
def tableBytes : Instr → Nat
  | .header _ => 4
  | .flag _ => 1
  | .lit _ => 1
  | .backRef _ _ => 2
  | .pad => 1
  | _ => 4

/-- The encoding has the table's width, and an access is aligned. -/
def Statement (i : Instr) : Prop :=
  match encode i with
  | .stream _ bytes => bytes.length = tableBytes i
  | .bus _ a => a.width = tableBytes i ∧ a.offset.toNat % 4 = 0

theorem header (n : Nat) : Statement (.header n) := rfl
theorem flag (f : Byte) : Statement (.flag f) := rfl
theorem lit (b : Byte) : Statement (.lit b) := rfl
theorem backRef (length distance : Nat) : Statement (.backRef length distance) := rfl
theorem pad : Statement .pad := rfl
theorem wrCtrlStart (v : Word) : Statement (.wrCtrlStart v) := ⟨rfl, by simp⟩
theorem wrCtrlBusy (v : Word) : Statement (.wrCtrlBusy v) := ⟨rfl, by simp⟩
theorem wrCtrlNoStart (v : Word) : Statement (.wrCtrlNoStart v) := ⟨rfl, by simp⟩
theorem rdCtrl : Statement .rdCtrl := ⟨rfl, by simp⟩
theorem rdStatus : Statement .rdStatus := ⟨rfl, by simp⟩
theorem wrStatus (v : Word) : Statement (.wrStatus v) := ⟨rfl, by simp⟩
theorem rdResult : Statement .rdResult := ⟨rfl, by simp⟩
theorem wrResult (v : Word) : Statement (.wrResult v) := ⟨rfl, by simp⟩
theorem wrArg (r : ArgReg) (v : Word) : Statement (.wrArg r v) := by cases r <;> exact ⟨rfl, by simp [ArgReg.offset]⟩
theorem rdArg (r : ArgReg) : Statement (.rdArg r) := by cases r <;> exact ⟨rfl, by simp [ArgReg.offset]⟩
theorem reserved (op : BusOp) : Statement (.reserved op) := ⟨rfl, by simp⟩

end Sys2Proof.Laws.EncodedWidth
end

