-- ==== Sys2Proof/Laws/Regions.lean ====
section
/-! SUPPORT. Address ranges as inequalities, and what each condition of InvalidArgument says. -/

namespace Sys2Proof.Machine

theorem Region.contains_iff (r : Region) (a : Nat) : r.contains a = true ↔ r.base ≤ a ∧ a < r.base + r.size := by
  simp [Region.contains]

theorem Region.contains_eq_false (r : Region) (a : Nat) : r.contains a = false ↔ a < r.base ∨ r.base + r.size ≤ a := by
  rw [← Bool.not_eq_true, Region.contains_iff]; omega

theorem Region.fits_iff (r : Region) : r.fits = true ↔ r.base + r.size ≤ Config.spaceSize := by
  simp [Region.fits]

theorem Region.meets_iff (r q : Region) :
    r.meets q = true ↔ r.size ≠ 0 ∧ q.size ≠ 0 ∧ r.base < q.base + q.size ∧ q.base < r.base + r.size := by
  simp [Region.meets, and_assoc]

theorem State.outRegion_fits (s : State) : s.outRegion.fits = true ↔ s.outAddr.toNat + s.cap ≤ Config.spaceSize :=
  Region.fits_iff _

theorem State.inRegion_fits (s : State) : s.inRegion.fits = true ↔ s.inAddr.toNat + s.n ≤ Config.spaceSize :=
  Region.fits_iff _

theorem State.outRegion_contains (s : State) (a : Nat) :
    s.outRegion.contains a = true ↔ s.outAt 0 ≤ a ∧ a < s.outAt s.cap := Region.contains_iff _ _

theorem State.inRegion_contains (s : State) (a : Nat) :
    s.inRegion.contains a = true ↔ s.inAt 0 ≤ a ∧ a < s.inAt s.n := Region.contains_iff _ _

theorem State.nullInput_iff (s : State) : s.nullInput = true ↔ s.inAddr = 0 ∧ s.inLen ≠ 0 := by
  simp [State.nullInput]

theorem State.nullOutput_iff (s : State) : s.nullOutput = true ↔ s.outAddr = 0 ∧ s.outCap ≠ 0 := by
  simp [State.nullOutput]

theorem State.inputTooLong_iff (s : State) : s.inputTooLong = true ↔ Config.maxInputLength < s.n := by
  simp [State.inputTooLong]

theorem State.regionsOverlap_iff (s : State) :
    s.regionsOverlap = true ↔
      s.n ≠ 0 ∧ s.cap ≠ 0 ∧ s.inAt 0 < s.outAt s.cap ∧ s.outAt 0 < s.inAt s.n := Region.meets_iff _ _

theorem State.regionWraps_iff (s : State) :
    s.regionWraps = true ↔ Config.spaceSize < s.inAt s.n ∨ Config.spaceSize < s.outAt s.cap := by
  rw [State.regionWraps, Bool.or_eq_true, Bool.not_eq_true', Bool.not_eq_true', ← Bool.not_eq_true,
    ← Bool.not_eq_true, Region.fits_iff, Region.fits_iff, not_le, not_le]
  rfl

/-- Valid arguments, condition by condition (R211, R212, R214, R215). -/
theorem State.argsInvalid_eq_false (s : State) :
    s.argsInvalid = false ↔
      s.nullInput = false ∧ s.nullOutput = false ∧ s.inputTooLong = false ∧ s.regionsOverlap = false ∧
        s.regionWraps = false := by
  simp [State.argsInvalid, and_assoc]

/-- Valid arguments put both regions inside the address space (R215). -/
theorem State.fits_of_argsValid {s : State} (h : s.argsInvalid = false) :
    s.inRegion.fits = true ∧ s.outRegion.fits = true := by
  have := ((State.argsInvalid_eq_false s).1 h).2.2.2.2
  simpa [State.regionWraps] using this

/-- Valid arguments keep the input within 24 bits (R212). -/
theorem State.n_le_of_argsValid {s : State} (h : s.argsInvalid = false) : s.n ≤ Config.maxInputLength := by
  have := ((State.argsInvalid_eq_false s).1 h).2.2.1
  simpa [State.inputTooLong] using this

/-- Valid arguments keep the regions apart (R214). -/
theorem State.disjoint_of_argsValid {s : State} (h : s.argsInvalid = false) {a : Nat}
    (hi : s.inRegion.contains a = true) : s.outRegion.contains a = false := by
  have hm := ((State.argsInvalid_eq_false s).1 h).2.2.2.1
  rw [State.regionsOverlap, ← Bool.not_eq_true, Region.meets_iff] at hm
  rw [Region.contains_iff] at hi
  rw [← Bool.not_eq_true, Region.contains_iff]
  omega

end Sys2Proof.Machine
end

