-- ==== Sys2Proof/Laws/State.lean ====
section
/-! SUPPORT. What each shared update of State leaves in each field, one lemma per field per update. -/

namespace Sys2Proof.Machine

/-! ### terminate -/

@[simp] theorem State.terminate_inAddr (s : State) (e : JobError) : (s.terminate e).inAddr = s.inAddr := rfl
@[simp] theorem State.terminate_inLen (s : State) (e : JobError) : (s.terminate e).inLen = s.inLen := rfl
@[simp] theorem State.terminate_outAddr (s : State) (e : JobError) : (s.terminate e).outAddr = s.outAddr := rfl
@[simp] theorem State.terminate_outCap (s : State) (e : JobError) : (s.terminate e).outCap = s.outCap := rfl
@[simp] theorem State.terminate_busy (s : State) (e : JobError) : (s.terminate e).busy = false := rfl
@[simp] theorem State.terminate_done (s : State) (e : JobError) : (s.terminate e).done = true := rfl
@[simp] theorem State.terminate_err (s : State) (e : JobError) : (s.terminate e).err = e.err := rfl
@[simp] theorem State.terminate_result (s : State) (e : JobError) : (s.terminate e).result = e.code := rfl
@[simp] theorem State.terminate_phase (s : State) (e : JobError) : (s.terminate e).phase = .idle := rfl
@[simp] theorem State.terminate_off (s : State) (e : JobError) : (s.terminate e).off = s.off := rfl
@[simp] theorem State.terminate_cursor (s : State) (e : JobError) : (s.terminate e).cursor = s.cursor := rfl
@[simp] theorem State.terminate_flagPos (s : State) (e : JobError) : (s.terminate e).flagPos = s.flagPos := rfl
@[simp] theorem State.terminate_flagVal (s : State) (e : JobError) : (s.terminate e).flagVal = s.flagVal := rfl
@[simp] theorem State.terminate_count (s : State) (e : JobError) : (s.terminate e).count = s.count := rfl
@[simp] theorem State.terminate_mem (s : State) (e : JobError) : (s.terminate e).mem = s.mem := rfl
@[simp] theorem State.terminate_rdata (s : State) (e : JobError) : (s.terminate e).rdata = s.rdata := rfl
@[simp] theorem State.terminate_hostOps (s : State) (e : JobError) : (s.terminate e).hostOps = s.hostOps := rfl
@[simp] theorem State.terminate_sched (s : State) (e : JobError) : (s.terminate e).sched = s.sched := rfl
@[simp] theorem State.terminate_devices (s : State) (e : JobError) : (s.terminate e).devices = s.devices := rfl
@[simp] theorem State.terminate_freeCtr (s : State) (e : JobError) : (s.terminate e).freeCtr = s.freeCtr := rfl

/-! ### complete -/

@[simp] theorem State.complete_inAddr (s : State) : s.complete.inAddr = s.inAddr := rfl
@[simp] theorem State.complete_inLen (s : State) : s.complete.inLen = s.inLen := rfl
@[simp] theorem State.complete_outAddr (s : State) : s.complete.outAddr = s.outAddr := rfl
@[simp] theorem State.complete_outCap (s : State) : s.complete.outCap = s.outCap := rfl
@[simp] theorem State.complete_busy (s : State) : s.complete.busy = false := rfl
@[simp] theorem State.complete_done (s : State) : s.complete.done = true := rfl
@[simp] theorem State.complete_err (s : State) : s.complete.err = 0 := rfl
@[simp] theorem State.complete_result (s : State) : s.complete.result = BitVec.ofNat 32 s.cursor := rfl
@[simp] theorem State.complete_phase (s : State) : s.complete.phase = .idle := rfl
@[simp] theorem State.complete_off (s : State) : s.complete.off = s.off := rfl
@[simp] theorem State.complete_cursor (s : State) : s.complete.cursor = s.cursor := rfl
@[simp] theorem State.complete_flagPos (s : State) : s.complete.flagPos = s.flagPos := rfl
@[simp] theorem State.complete_flagVal (s : State) : s.complete.flagVal = s.flagVal := rfl
@[simp] theorem State.complete_count (s : State) : s.complete.count = s.count := rfl
@[simp] theorem State.complete_mem (s : State) : s.complete.mem = s.mem := rfl
@[simp] theorem State.complete_rdata (s : State) : s.complete.rdata = s.rdata := rfl
@[simp] theorem State.complete_hostOps (s : State) : s.complete.hostOps = s.hostOps := rfl
@[simp] theorem State.complete_sched (s : State) : s.complete.sched = s.sched := rfl
@[simp] theorem State.complete_devices (s : State) : s.complete.devices = s.devices := rfl
@[simp] theorem State.complete_freeCtr (s : State) : s.complete.freeCtr = s.freeCtr := rfl

/-! ### startJob -/

@[simp] theorem State.startJob_inAddr (s : State) : s.startJob.inAddr = s.inAddr := rfl
@[simp] theorem State.startJob_inLen (s : State) : s.startJob.inLen = s.inLen := rfl
@[simp] theorem State.startJob_outAddr (s : State) : s.startJob.outAddr = s.outAddr := rfl
@[simp] theorem State.startJob_outCap (s : State) : s.startJob.outCap = s.outCap := rfl
@[simp] theorem State.startJob_busy (s : State) : s.startJob.busy = true := rfl
@[simp] theorem State.startJob_done (s : State) : s.startJob.done = false := rfl
@[simp] theorem State.startJob_err (s : State) : s.startJob.err = 0 := rfl
@[simp] theorem State.startJob_result (s : State) : s.startJob.result = 0 := rfl
@[simp] theorem State.startJob_phase (s : State) : s.startJob.phase = .validate := rfl
@[simp] theorem State.startJob_off (s : State) : s.startJob.off = 0 := rfl
@[simp] theorem State.startJob_cursor (s : State) : s.startJob.cursor = 0 := rfl
@[simp] theorem State.startJob_flagPos (s : State) : s.startJob.flagPos = 0 := rfl
@[simp] theorem State.startJob_flagVal (s : State) : s.startJob.flagVal = 0 := rfl
@[simp] theorem State.startJob_count (s : State) : s.startJob.count = 0 := rfl
@[simp] theorem State.startJob_mem (s : State) : s.startJob.mem = s.mem := rfl
@[simp] theorem State.startJob_rdata (s : State) : s.startJob.rdata = s.rdata := rfl
@[simp] theorem State.startJob_hostOps (s : State) : s.startJob.hostOps = s.hostOps := rfl
@[simp] theorem State.startJob_sched (s : State) : s.startJob.sched = s.sched := rfl
@[simp] theorem State.startJob_devices (s : State) : s.startJob.devices = s.devices := rfl
@[simp] theorem State.startJob_freeCtr (s : State) : s.startJob.freeCtr = s.freeCtr := rfl

/-! ### clearBlock -/

@[simp] theorem State.clearBlock_inAddr (s : State) : s.clearBlock.inAddr = 0 := rfl
@[simp] theorem State.clearBlock_inLen (s : State) : s.clearBlock.inLen = 0 := rfl
@[simp] theorem State.clearBlock_outAddr (s : State) : s.clearBlock.outAddr = 0 := rfl
@[simp] theorem State.clearBlock_outCap (s : State) : s.clearBlock.outCap = 0 := rfl
@[simp] theorem State.clearBlock_busy (s : State) : s.clearBlock.busy = false := rfl
@[simp] theorem State.clearBlock_done (s : State) : s.clearBlock.done = false := rfl
@[simp] theorem State.clearBlock_err (s : State) : s.clearBlock.err = 0 := rfl
@[simp] theorem State.clearBlock_result (s : State) : s.clearBlock.result = 0 := rfl
@[simp] theorem State.clearBlock_phase (s : State) : s.clearBlock.phase = .idle := rfl
@[simp] theorem State.clearBlock_off (s : State) : s.clearBlock.off = 0 := rfl
@[simp] theorem State.clearBlock_cursor (s : State) : s.clearBlock.cursor = 0 := rfl
@[simp] theorem State.clearBlock_flagPos (s : State) : s.clearBlock.flagPos = 0 := rfl
@[simp] theorem State.clearBlock_flagVal (s : State) : s.clearBlock.flagVal = 0 := rfl
@[simp] theorem State.clearBlock_count (s : State) : s.clearBlock.count = 0 := rfl
@[simp] theorem State.clearBlock_mem (s : State) : s.clearBlock.mem = s.mem := rfl
@[simp] theorem State.clearBlock_rdata (s : State) : s.clearBlock.rdata = s.rdata := rfl
@[simp] theorem State.clearBlock_hostOps (s : State) : s.clearBlock.hostOps = s.hostOps := rfl
@[simp] theorem State.clearBlock_sched (s : State) : s.clearBlock.sched = s.sched := rfl
@[simp] theorem State.clearBlock_devices (s : State) : s.clearBlock.devices = s.devices := rfl
@[simp] theorem State.clearBlock_freeCtr (s : State) : s.clearBlock.freeCtr = s.freeCtr := rfl

/-! ### returnRead -/

@[simp] theorem State.returnRead_inAddr (s : State) (v : Word) : (s.returnRead v).inAddr = s.inAddr := rfl
@[simp] theorem State.returnRead_inLen (s : State) (v : Word) : (s.returnRead v).inLen = s.inLen := rfl
@[simp] theorem State.returnRead_outAddr (s : State) (v : Word) : (s.returnRead v).outAddr = s.outAddr := rfl
@[simp] theorem State.returnRead_outCap (s : State) (v : Word) : (s.returnRead v).outCap = s.outCap := rfl
@[simp] theorem State.returnRead_busy (s : State) (v : Word) : (s.returnRead v).busy = s.busy := rfl
@[simp] theorem State.returnRead_done (s : State) (v : Word) : (s.returnRead v).done = s.done := rfl
@[simp] theorem State.returnRead_err (s : State) (v : Word) : (s.returnRead v).err = s.err := rfl
@[simp] theorem State.returnRead_result (s : State) (v : Word) : (s.returnRead v).result = s.result := rfl
@[simp] theorem State.returnRead_phase (s : State) (v : Word) : (s.returnRead v).phase = s.phase := rfl
@[simp] theorem State.returnRead_off (s : State) (v : Word) : (s.returnRead v).off = s.off := rfl
@[simp] theorem State.returnRead_cursor (s : State) (v : Word) : (s.returnRead v).cursor = s.cursor := rfl
@[simp] theorem State.returnRead_flagPos (s : State) (v : Word) : (s.returnRead v).flagPos = s.flagPos := rfl
@[simp] theorem State.returnRead_flagVal (s : State) (v : Word) : (s.returnRead v).flagVal = s.flagVal := rfl
@[simp] theorem State.returnRead_count (s : State) (v : Word) : (s.returnRead v).count = s.count := rfl
@[simp] theorem State.returnRead_mem (s : State) (v : Word) : (s.returnRead v).mem = s.mem := rfl
@[simp] theorem State.returnRead_rdata (s : State) (v : Word) : (s.returnRead v).rdata = v := rfl
@[simp] theorem State.returnRead_hostOps (s : State) (v : Word) : (s.returnRead v).hostOps = s.hostOps := rfl
@[simp] theorem State.returnRead_sched (s : State) (v : Word) : (s.returnRead v).sched = s.sched := rfl
@[simp] theorem State.returnRead_devices (s : State) (v : Word) : (s.returnRead v).devices = s.devices := rfl
@[simp] theorem State.returnRead_freeCtr (s : State) (v : Word) : (s.returnRead v).freeCtr = s.freeCtr := rfl

/-! ### useTurn -/

@[simp] theorem State.useTurn_inAddr (s : State) : s.useTurn.inAddr = s.inAddr := rfl
@[simp] theorem State.useTurn_inLen (s : State) : s.useTurn.inLen = s.inLen := rfl
@[simp] theorem State.useTurn_outAddr (s : State) : s.useTurn.outAddr = s.outAddr := rfl
@[simp] theorem State.useTurn_outCap (s : State) : s.useTurn.outCap = s.outCap := rfl
@[simp] theorem State.useTurn_busy (s : State) : s.useTurn.busy = s.busy := rfl
@[simp] theorem State.useTurn_done (s : State) : s.useTurn.done = s.done := rfl
@[simp] theorem State.useTurn_err (s : State) : s.useTurn.err = s.err := rfl
@[simp] theorem State.useTurn_result (s : State) : s.useTurn.result = s.result := rfl
@[simp] theorem State.useTurn_phase (s : State) : s.useTurn.phase = s.phase := rfl
@[simp] theorem State.useTurn_off (s : State) : s.useTurn.off = s.off := rfl
@[simp] theorem State.useTurn_cursor (s : State) : s.useTurn.cursor = s.cursor := rfl
@[simp] theorem State.useTurn_flagPos (s : State) : s.useTurn.flagPos = s.flagPos := rfl
@[simp] theorem State.useTurn_flagVal (s : State) : s.useTurn.flagVal = s.flagVal := rfl
@[simp] theorem State.useTurn_count (s : State) : s.useTurn.count = s.count := rfl
@[simp] theorem State.useTurn_mem (s : State) : s.useTurn.mem = s.mem := rfl
@[simp] theorem State.useTurn_rdata (s : State) : s.useTurn.rdata = s.rdata := rfl
@[simp] theorem State.useTurn_hostOps (s : State) : s.useTurn.hostOps = s.hostOps := rfl
@[simp] theorem State.useTurn_sched (s : State) : s.useTurn.sched = s.sched.tail := rfl
@[simp] theorem State.useTurn_devices (s : State) : s.useTurn.devices = s.devices := rfl
@[simp] theorem State.useTurn_freeCtr (s : State) : s.useTurn.freeCtr = s.freeCtr := rfl

end Sys2Proof.Machine
end

