-- ==== Sys2Proof/Laws/Step.lean ====
section
/-! SUPPORT. What a step is, by whose turn it is, and runs of several steps. -/

namespace Sys2Proof.Machine

theorem step_engine {s : State} (h : s.turn = .engine) : step s = engineStep s.useTurn := by simp [step, h]

theorem step_host {s : State} (h : s.turn = .host) : step s = hostStep s.useTurn := by simp [step, h]

/-- The schedule decides while it lasts. -/
theorem State.turn_cons {s : State} {a : Agent} {rest : List Agent} (h : s.sched = a :: rest) : s.turn = a := by
  simp [State.turn, h]

/-- Past the schedule's end the engine has every turn while a job runs. -/
theorem State.turn_nil_busy {s : State} (h : s.sched = []) (hb : s.busy = true) : s.turn = .engine := by
  simp [State.turn, h, hb]

theorem State.turn_nil_idle {s : State} (h : s.sched = []) (hb : s.busy = false) : s.turn = .host := by
  simp [State.turn, h, hb]

/-- With an empty schedule a turn uses nothing up. -/
theorem State.useTurn_nil {s : State} (h : s.sched = []) : s.useTurn = s := by
  cases s
  simp only at h
  subst h
  rfl

@[simp] theorem run_zero (s : State) : run 0 s = .next s := rfl

theorem run_succ (k : Nat) (s : State) :
    run (k + 1) s =
      match step s with
      | .next t => run k t
      | .fault f => .fault f
      | .refused r => .refused r := rfl

/-- A first step, then the rest. -/
theorem run_succ_next {k : Nat} {s t : State} (h : step s = .next t) : run (k + 1) s = run k t := by
  rw [run_succ, h]

/-- Runs join. -/
theorem run_add {k l : Nat} {s t : State} (h : run k s = .next t) : run (k + l) s = run l t := by
  induction k generalizing s with
  | zero => simp at h; simp [h]
  | succ k ih =>
    rw [Nat.succ_add, run_succ]
    rw [run_succ] at h
    split at h <;> simp_all

/-! ### The end of a run -/

/-- What a state that reads DONE is: DONE = 1, the host's turn, and a STATUS read next. -/
theorem State.readsDone_iff (s : State) :
    s.readsDone = true ↔ s.done = true ∧ s.turn = .host ∧ ∃ o rest, s.hostOps = o :: rest ∧ o.readsStatus = true := by
  unfold State.readsDone
  cases s.hostOps <;> simp [and_assoc]

/-- Before a START is accepted no read ends the run. -/
@[simp] theorem Progress.at_none (s : State) : Progress.at none s = .going none s := rfl

theorem Progress.at_reads {r : Region} {s : State} (h : s.readsDone = true) :
    Progress.at (some r) s = .ended { status := s.statusWord, result := s.result, output := r.bytes s.mem } := by
  simp [Progress.at, h]

theorem Progress.at_going {job : Option Region} {s : State} (h : s.readsDone = false) :
    Progress.at job s = .going job s := by
  cases job <;> simp [Progress.at, h]

theorem jobAfter_start {job : Option Region} {s : State} (h : s.acceptsStart = true) :
    jobAfter job s = some s.outRegion := by simp [jobAfter, h]

theorem jobAfter_other {job : Option Region} {s : State} (h : s.acceptsStart = false) : jobAfter job s = job := by
  simp [jobAfter, h]

/-- Where the run ends it stays, whatever steps are left. -/
theorem runToEnd_ended {k : Nat} {job : Option Region} {s : State} {e : RunEnd} (h : Progress.at job s = .ended e) :
    runToEnd k job s = .next (.ended e) := by
  cases k <;> simp [runToEnd, h]

/-- Where it does not end it takes a step, and remembers the job that the step starts. -/
theorem runToEnd_succ_next {k : Nat} {job job' : Option Region} {s s' t : State} (hp : Progress.at job s = .going job' s')
    (h : step s = .next t) : runToEnd (k + 1) job s = runToEnd k (jobAfter job s) t := by
  simp [runToEnd, hp, h]

end Sys2Proof.Machine
end

