-- ==== Sys2Proof/Laws/Writer.lean ====
section
/-! SUPPORT. What each operation of the writers can do: when it goes on and to what state, and when it raises an error and
in what state. -/

namespace Sys2Proof.Machine

/-! ### Effects -/

@[simp] theorem Effect.andThen_ok (s : State) (k : State → Effect) : (Effect.ok s).andThen k = k s := rfl

@[simp] theorem Effect.andThen_raise (j : JobError) (s : State) (k : State → Effect) :
    (Effect.raise j s).andThen k = .raise j s := rfl

@[simp] theorem Effect.andThen_fault (f : Fault) (k : State → Effect) : (Effect.fault f).andThen k = .fault f := rfl

@[simp] theorem Effect.outcome_ok (s : State) : (Effect.ok s).outcome = .next s := rfl

@[simp] theorem Effect.outcome_raise (j : JobError) (s : State) : (Effect.raise j s).outcome = .next (s.terminate j) := rfl

@[simp] theorem Effect.outcome_fault (f : Fault) : (Effect.fault f).outcome = .fault f := rfl

/-- Two pieces in a row go on when both do. -/
theorem Effect.andThen_eq_ok {e : Effect} {k : State → Effect} {t : State} :
    e.andThen k = .ok t ↔ ∃ s, e = .ok s ∧ k s = .ok t := by
  cases e <;> simp

/-- Two pieces in a row raise an error when one of them does. -/
theorem Effect.andThen_eq_raise {e : Effect} {k : State → Effect} {j : JobError} {t : State} :
    e.andThen k = .raise j t ↔ e = .raise j t ∨ ∃ s, e = .ok s ∧ k s = .raise j t := by
  cases e <;> simp

/-- Two pieces in a row fault when one of them does. -/
theorem Effect.andThen_eq_fault {e : Effect} {k : State → Effect} {f : Fault} :
    e.andThen k = .fault f ↔ e = .fault f ∨ ∃ s, e = .ok s ∧ k s = .fault f := by
  cases e <;> simp

/-- An engine step gives a next state by going on, or by ending the job with the error raised (R216). -/
theorem Effect.outcome_eq_next {e : Effect} {t : State} :
    e.outcome = .next t ↔ e = .ok t ∨ ∃ j s, e = .raise j s ∧ t = s.terminate j := by
  cases e <;> simp [eq_comm]

theorem Effect.outcome_eq_fault {e : Effect} {f : Fault} : e.outcome = .fault f ↔ e = .fault f := by
  cases e <;> simp

theorem Effect.outcome_ne_refused (e : Effect) (r : Refusal) : e.outcome ≠ .refused r := by
  cases e <;> simp

/-! ### append -/

/-- append goes on exactly when the bytes fit the capacity and the address space (R160). -/
theorem State.append_eq_ok {bs : List Byte} {s t : State} :
    s.append bs = .ok t ↔
      s.cursor + bs.length ≤ s.cap ∧ s.outAt (s.cursor + bs.length) ≤ Config.spaceSize ∧
        t = { s with mem := s.mem.writeBytes (s.outAt s.cursor) bs, cursor := s.cursor + bs.length } := by
  unfold State.append
  split
  · simp; omega
  · split
    · simp; omega
    · next h1 h2 =>
      rw [Effect.ok.injEq]
      exact ⟨fun h => ⟨by omega, by omega, h.symm⟩, fun h => h.2.2.symm⟩

/-- append raises OutputExhausted exactly when the bytes do not fit, and changes nothing (R160, R161, R165). -/
theorem State.append_eq_raise {bs : List Byte} {s t : State} {j : JobError} :
    s.append bs = .raise j t ↔ s.cap < s.cursor + bs.length ∧ j = .outputExhausted ∧ t = s := by
  unfold State.append
  split
  · next h => simp [h, eq_comm]
  · next h => split <;> simp [h]

/-- append faults only where the output region leaves the address space. -/
theorem State.append_eq_fault {bs : List Byte} {s : State} {f : Fault} (h : s.append bs = .fault f) :
    s.outRegion.fits = false := by
  unfold State.append at h
  split at h
  · simp at h
  · split at h
    · rw [← Bool.not_eq_true, State.outRegion_fits]; unfold State.outAt at *; omega
    · simp at h

/-- The bytes fit a capacity that lies in the address space. -/
theorem State.append_fits {bs : List Byte} {s : State} (hc : s.cursor + bs.length ≤ s.cap)
    (hf : s.outRegion.fits = true) :
    s.append bs = .ok { s with mem := s.mem.writeBytes (s.outAt s.cursor) bs, cursor := s.cursor + bs.length } := by
  refine State.append_eq_ok.2 ⟨hc, ?_, rfl⟩
  rw [State.outRegion_fits] at hf
  unfold State.outAt
  omega

/-! ### The flag byte -/

/-- Group open goes on exactly when one byte fits (R141). -/
theorem State.reserveFlag_eq_ok {s t : State} :
    s.reserveFlag = .ok t ↔
      s.cursor + 1 ≤ s.cap ∧ s.outAt (s.cursor + 1) ≤ Config.spaceSize ∧
        t = { s with
          flagPos := s.cursor, mem := s.mem.write (s.outAt s.cursor) 0, cursor := s.cursor + 1, flagVal := 0 } := by
  unfold State.reserveFlag
  rw [Effect.andThen_eq_ok]
  constructor
  · rintro ⟨u, hu, ht⟩
    obtain ⟨h1, h2, rfl⟩ := State.append_eq_ok.1 hu
    exact ⟨h1, h2, (Effect.ok.inj ht).symm⟩
  · rintro ⟨h1, h2, rfl⟩
    exact ⟨_, State.append_eq_ok.2 ⟨h1, h2, rfl⟩, rfl⟩

/-- Group open raises OutputExhausted exactly when no byte is left. -/
theorem State.reserveFlag_eq_raise {s t : State} {j : JobError} :
    s.reserveFlag = .raise j t ↔
      s.cap < s.cursor + 1 ∧ j = .outputExhausted ∧ t = { s with flagPos := s.cursor } := by
  unfold State.reserveFlag
  rw [Effect.andThen_eq_raise, State.append_eq_raise]
  exact ⟨fun h => h.elim id (fun ⟨u, _, hu⟩ => by simp at hu), .inl⟩

/-- The flag write-back goes on wherever its address exists (R145, R146). -/
theorem State.writeFlag_eq_ok {f : Byte} {s t : State} :
    s.writeFlag f = .ok t ↔
      s.outAt s.flagPos < Config.spaceSize ∧
        t = { s with mem := s.mem.write (s.outAt s.flagPos) f, count := 0, flagVal := 0 } := by
  unfold State.writeFlag
  split
  · simp; omega
  · next h => simp [not_le.1 h, eq_comm]

/-- The flag write-back raises no error (R146). -/
theorem State.writeFlag_ne_raise (f : Byte) (s t : State) (j : JobError) : s.writeFlag f ≠ .raise j t := by
  unfold State.writeFlag
  split <;> simp

/-! ### emit -/

/-- What group open leaves behind where it goes on. -/
theorem State.openGroup_eq_ok {s t : State} :
    s.openGroup = .ok t ↔ (s.count = 0 ∧ s.reserveFlag = .ok t) ∨ (s.count ≠ 0 ∧ t = s) := by
  unfold State.openGroup
  split <;> simp_all [eq_comm]

theorem State.openGroup_eq_raise {s t : State} {j : JobError} :
    s.openGroup = .raise j t ↔ s.count = 0 ∧ s.reserveFlag = .raise j t := by
  unfold State.openGroup
  split <;> simp_all

/-- A token is put exactly when its bytes fit (R142, R143, R144). -/
theorem State.putToken_eq_ok {tok : Token} {s t : State} :
    s.putToken tok = .ok t ↔
      s.cursor + tok.bytes.length ≤ s.cap ∧ s.outAt (s.cursor + tok.bytes.length) ≤ Config.spaceSize ∧
        t = { s with
          mem := s.mem.writeBytes (s.outAt s.cursor) tok.bytes, cursor := s.cursor + tok.bytes.length,
          flagVal := s.markToken tok, count := s.count + 1 } := by
  unfold State.putToken
  rw [Effect.andThen_eq_ok]
  constructor
  · rintro ⟨u, hu, ht⟩
    obtain ⟨h1, h2, rfl⟩ := State.append_eq_ok.1 hu
    exact ⟨h1, h2, (Effect.ok.inj ht).symm⟩
  · rintro ⟨h1, h2, rfl⟩
    exact ⟨_, State.append_eq_ok.2 ⟨h1, h2, rfl⟩, rfl⟩

theorem State.putToken_eq_raise {tok : Token} {s t : State} {j : JobError} :
    s.putToken tok = .raise j t ↔ s.cap < s.cursor + tok.bytes.length ∧ j = .outputExhausted ∧ t = s := by
  unfold State.putToken
  rw [Effect.andThen_eq_raise, State.append_eq_raise]
  exact ⟨fun h => h.elim id (fun ⟨u, _, hu⟩ => by simp at hu), .inl⟩

/-- Group close writes the flag byte back, or does nothing (R145). -/
theorem State.closeGroup_eq_ok {next : Nat} {s t : State} :
    s.closeGroup next = .ok t ↔
      ((s.count = Config.groupSize ∨ next = s.n) ∧ s.writeFlag s.flagVal = .ok t) ∨
        (¬(s.count = Config.groupSize ∨ next = s.n) ∧ t = s) := by
  unfold State.closeGroup
  split <;> simp_all [eq_comm]

theorem State.closeGroup_ne_raise (next : Nat) (s t : State) (j : JobError) : s.closeGroup next ≠ .raise j t := by
  unfold State.closeGroup
  split
  · exact State.writeFlag_ne_raise _ _ _ _
  · simp

/-- emit goes on exactly when group open, the token and group close do (R147). -/
theorem State.emit_eq_ok {tok : Token} {next : Nat} {s t : State} :
    s.emit tok next = .ok t ↔
      ∃ u v, s.openGroup = .ok u ∧ u.putToken tok = .ok v ∧ v.closeGroup next = .ok t := by
  simp only [State.emit, Effect.andThen_eq_ok]
  exact ⟨fun ⟨u, hu, v, hv, ht⟩ => ⟨u, v, hu, hv, ht⟩, fun ⟨u, v, hu, hv, ht⟩ => ⟨u, hu, v, hv, ht⟩⟩

/-- emit raises OutputExhausted in group open or at the token, and nothing after it runs (R150). -/
theorem State.emit_eq_raise {tok : Token} {next : Nat} {s t : State} {j : JobError} :
    s.emit tok next = .raise j t ↔
      s.openGroup = .raise j t ∨ ∃ u, s.openGroup = .ok u ∧ u.putToken tok = .raise j t := by
  simp only [State.emit, Effect.andThen_eq_raise]
  refine or_congr_right (exists_congr fun u => and_congr_right fun _ => ?_)
  exact ⟨fun h => h.elim id (fun ⟨v, _, hv⟩ => absurd hv (State.closeGroup_ne_raise _ _ _ _)), .inl⟩

/-- Emitting a token moves the input cursor past what it stands for (R174). -/
theorem State.emitToken_eq_ok {tok : Token} {s t : State} :
    s.emitToken tok = .ok t ↔
      ∃ u, s.emit tok (s.off + tok.span) = .ok u ∧ t = { u with off := s.off + tok.span } := by
  simp only [State.emitToken, Effect.andThen_eq_ok, Effect.ok.injEq]
  exact exists_congr fun u => and_congr_right fun _ => eq_comm

theorem State.emitToken_eq_raise {tok : Token} {s t : State} {j : JobError} :
    s.emitToken tok = .raise j t ↔ s.emit tok (s.off + tok.span) = .raise j t := by
  simp only [State.emitToken, Effect.andThen_eq_raise]
  exact ⟨fun h => h.elim id (fun ⟨u, _, hu⟩ => by simp at hu), .inl⟩

end Sys2Proof.Machine
end

