-- ==== Sys2Proof/Tests/Slice0.lean ====
section
/-! SUPPORT. Tests of the model against words and vectors of spec/95_test_vectors.md and spec/30_encoding.md, the smoke
tests of well-formedness, and for every statement with premises a witness that meets them. Each test names its source. -/

namespace Sys2Proof.Tests

open Sys2Proof.Machine Sys2Proof.Stated

/-! ### Helpers -/

/-- One field of a next state. -/
def after {α : Type} (o : Host.Outcome State Fault Refusal) (f : State → α) : Option α :=
  match o with
  | .next s => some (f s)
  | .fault _ => none
  | .refused _ => none

/-- A job on the 12 bytes of V-SRC-B at 0x1000, output at 0x2000 with capacity 16, about to be validated. -/
def jobB : State :=
  { State.reset with
    inAddr := 0x1000, inLen := 12, outAddr := 0x2000, outCap := 16, busy := true, phase := .validate,
    mem := Memory.writeBytes [] 0x1000 [1, 2, 3, 4, 5, 6, 7, 8, 1, 2, 3, 4] }

/-- The same job with another capacity. -/
def jobCap (c : Word) : State := { jobB with outCap := c }

/-- The same job in its main loop, after `off` input bytes and `cursor` output bytes, with `count` tokens in the group
whose flag byte is at 4. -/
def jobToken (c : Word) (off cursor count : Nat) : State :=
  { jobCap c with phase := .token, off := off, cursor := cursor, count := count, flagPos := 4 }

/-- The same job in its padding. -/
def jobPad (c : Word) (cursor : Nat) : State := { jobCap c with phase := .pad, off := 12, cursor := cursor }

/-- The job done with success (RESULT = 16). -/
def jobDone : State := { jobB with busy := false, done := true, phase := .idle, result := 16, cursor := 16 }

/-- A read and a write of the register at an offset. -/
def rd (offset : BitVec 5) : HostOp := .access { offset := offset, width := 4, op := .read }
def wr (offset : BitVec 5) (v : Word) : HostOp := .access { offset := offset, width := 4, op := .write v }

/-! ### Well-formedness refuses ill-formed terms -/

/-- R71: N needs 24 bits. -/
theorem test_wf_header_too_long : (Instr.header 0x1000000).wf = false := by decide
/-- R11: lengths 3 to 18. -/
theorem test_wf_match_too_short : (Instr.backRef 2 8).wf = false := by decide
theorem test_wf_match_too_long : (Instr.backRef 19 8).wf = false := by decide
/-- R11: distances 1 to 4096. -/
theorem test_wf_match_distance_zero : (Instr.backRef 3 0).wf = false := by decide
theorem test_wf_match_distance_too_far : (Instr.backRef 3 4097).wf = false := by decide
/-- R191 to R193: bit 0 of the value. -/
theorem test_wf_start_bit : (Instr.wrCtrlStart 0xFFFFFFFE).wf = false := by decide
theorem test_wf_busy_bit : (Instr.wrCtrlBusy 2).wf = false := by decide
theorem test_wf_no_start_bit : (Instr.wrCtrlNoStart 1).wf = false := by decide
/-- R79: the encoder never emits a distance below 8. -/
theorem test_not_emittable : (Token.backRef 3 7).emittable = false := by decide

/-! ### Decoding, one word for each constructor, written out from the spec's encodings -/

/-- V-EN-3. -/
theorem test_decode_header : decode (.stream .header [0x10, 0x56, 0x34, 0x12]) = .ok (.header 0x123456) := by decide
/-- V-EN-16. -/
theorem test_decode_flag : decode (.stream .flag [0b10000000]) = .ok (.flag 0x80) := by decide
/-- R75. -/
theorem test_decode_lit : decode (.stream (.token false) [0b10101011]) = .ok (.lit 0xAB) := by decide
/-- V-EN-12: L = 7, D = 0x12B. -/
theorem test_decode_match : decode (.stream (.token true) [0b01110001, 0b00101011]) = .ok (.backRef 10 300) := by decide
/-- V-EN-15: the high nibble of D is in byte1. -/
theorem test_decode_match_high_distance : decode (.stream (.token true) [0x01, 0x00]) = .ok (.backRef 3 257) := by decide
/-- R76. -/
theorem test_decode_pad : decode (.stream .pad [0b00000000]) = .ok .pad := by decide
/-- R80 and R191, R192, R193. -/
theorem test_decode_start : decode (.bus false ⟨0b00000, 4, .write 0x80000001⟩) = .ok (.wrCtrlStart 0x80000001) := by decide
theorem test_decode_start_busy : decode (.bus true ⟨0b00000, 4, .write 1⟩) = .ok (.wrCtrlBusy 1) := by decide
theorem test_decode_no_start : decode (.bus false ⟨0b00000, 4, .write 0xFFFFFFFE⟩) = .ok (.wrCtrlNoStart 0xFFFFFFFE) := by decide
/-- R80: offset bits 4:2 select the register. -/
theorem test_decode_rd_ctrl : decode (.bus true ⟨0b00000, 4, .read⟩) = .ok .rdCtrl := by decide
theorem test_decode_rd_status : decode (.bus true ⟨0b00100, 4, .read⟩) = .ok .rdStatus := by decide
theorem test_decode_wr_status : decode (.bus false ⟨0b00100, 4, .write 5⟩) = .ok (.wrStatus 5) := by decide
theorem test_decode_rd_result : decode (.bus false ⟨0b11000, 4, .read⟩) = .ok .rdResult := by decide
theorem test_decode_wr_result : decode (.bus false ⟨0b11000, 4, .write 5⟩) = .ok (.wrResult 5) := by decide
theorem test_decode_wr_in_addr : decode (.bus false ⟨0b01000, 4, .write 0x1000⟩) = .ok (.wrArg .inAddr 0x1000) := by decide
theorem test_decode_wr_in_len : decode (.bus false ⟨0b01100, 4, .write 12⟩) = .ok (.wrArg .inLen 12) := by decide
theorem test_decode_rd_out_addr : decode (.bus false ⟨0b10000, 4, .read⟩) = .ok (.rdArg .outAddr) := by decide
theorem test_decode_rd_out_cap : decode (.bus false ⟨0b10100, 4, .read⟩) = .ok (.rdArg .outCap) := by decide
theorem test_decode_reserved : decode (.bus false ⟨0b11100, 4, .write 7⟩) = .ok (.reserved (.write 7)) := by decide

/-! ### Rejections by name -/

theorem test_reject_format_tag : decode (.stream .header [0x11, 0, 0, 0]) = .error .badFormatTag := by decide
theorem test_reject_short_header : decode (.stream .header [0x10, 0, 0]) = .error .tooFewBytes := by decide
theorem test_reject_trailing : decode (.stream .flag [0, 0]) = .error .trailingBytes := by decide
theorem test_reject_padding : decode (.stream .pad [1]) = .error .nonzeroPadding := by decide
/-- R202: byte and halfword accesses, and offsets with bits 1:0 not 00. -/
theorem test_reject_width : decode (.bus false ⟨0b00100, 2, .read⟩) = .error .badWidth := by decide
theorem test_reject_offset : decode (.bus false ⟨0b00110, 4, .read⟩) = .error .misalignedOffset := by decide
/-- R73: an unused bit of the last flag byte. -/
theorem test_reject_unused_flag_bit :
    readStream [0x10, 1, 0, 0, 0x01, 0xAB, 0, 0] = .error .nonzeroUnusedFlagBit := by decide
/-- V-OE-8 read back. -/
theorem test_read_stream : readStream [0x10, 1, 0, 0, 0, 0xAB, 0, 0] = .ok (1, [.literal 0xAB]) := by decide

/-! ### The words of the opcode table run as the next step -/

theorem test_table_header_runs : after (step (State.reset.withFetchWord 32 0x00000010)) State.phase = some .token := by decide
theorem test_table_pad_runs : after (step (State.reset.withFetchWord 8 0x00)) State.cursor = some 7 := by decide
theorem test_table_match_runs :
    after (step (State.reset.withFetchWord 16 0x1007)) (fun s => (s.off, s.outByte 5, s.outByte 6)) = some (12, 0x10, 0x07) := by
  decide
theorem test_table_lit_runs : after (step (State.reset.withFetchWord 8 0xAB)) (fun s => s.outByte 5) = some 0xAB := by decide

/-! ### Stream elements, one step each -/

/-- V-EN-4. -/
theorem test_header_bytes :
    after (exec (.header 0xFFFFFF) (jobCap 16)) (fun s => s.outputBytes 4) = some [0x10, 0xFF, 0xFF, 0xFF] := by decide
/-- V-OE-2: no partial header. -/
theorem test_header_exhausted :
    after (exec (.header 0) (jobCap 3)) (fun s => (s.result, s.statusWord, s.mem)) =
      some (0xFFFFFFFE, 0x0000000A, jobB.mem) := by decide
/-- R141: the placeholder. -/
theorem test_flag_reserves :
    after (exec (.flag 0x80) (jobToken 16 0 4 0)) (fun s => (s.flagPos, s.cursor, s.outByte 4)) = some (4, 5, 0) := by decide
/-- R145: the write-back. -/
theorem test_flag_writes_back :
    after (exec (.flag 0x80) (jobToken 16 0 7 1)) (fun s => (s.count, s.cursor, s.outByte 4)) = some (0, 7, 0x80) := by decide
/-- V-OE-5: the reservation succeeds, the literal does not fit, the placeholder stays. -/
theorem test_lit_exhausted :
    after (exec (.lit 0xAB) (jobToken 5 0 4 0)) (fun s => (s.cursor, s.result, s.done)) = some (5, 0xFFFFFFFE, true) := by decide
/-- V-BW-1: the 8th token closes the group. -/
theorem test_lit_eighth_closes :
    after (exec (.lit 8) (jobToken 16 7 12 7)) (fun s => (s.count, s.off, s.outByte 12, s.outByte 4)) = some (0, 8, 8, 0) := by
  decide
/-- V-SRC-B: the 9th token opens a group and ends the input: flag byte 0x80, bytes 10 07. -/
theorem test_match_opens_and_closes :
    after (exec (.backRef 4 8) (jobToken 16 8 13 0)) (fun s => (s.outByte 13, s.outByte 14, s.outByte 15, s.count)) =
      some (0x80, 0x10, 0x07, 0) := by decide
/-- V-OE-9: the two bytes are one append; nothing is written with one byte free. -/
theorem test_match_exhausted :
    after (exec (.backRef 4 8) (jobToken 15 8 13 0)) (fun s => (s.cursor, s.outByte 14, s.err)) = some (14, 0, 0b10) := by decide
/-- V-OE-7: the second padding byte fails. -/
theorem test_pad_exhausted : after (exec .pad (jobPad 7 7)) (fun s => (s.cursor, s.result)) = some (7, 0xFFFFFFFE) := by decide
/-- V-EN-20: no padding at a multiple of 4. -/
theorem test_pad_completes :
    after (exec .pad (jobPad 16 16)) (fun s => (s.result, s.statusWord)) = some (0x10, 0x00000002) := by decide

/-! ### Register accesses, one step each -/

/-- V-HC-2. -/
theorem test_start : after (exec (.wrCtrlStart 1) jobDone) (fun s => (s.statusWord, s.result)) = some (1, 0) := by decide
/-- V-HC-4. -/
theorem test_start_while_busy : after (exec (.wrCtrlBusy 1) jobB) id = some jobB := by decide
/-- V-HC-6. -/
theorem test_no_start : after (exec (.wrCtrlNoStart 0xFFFFFFFE) State.reset) id = some State.reset := by decide
/-- R194. -/
theorem test_rd_ctrl : after (exec .rdCtrl { jobB with rdata := 7 }) State.rdata = some 0 := by decide
/-- R195: ERR in bits 3:2, DONE in bit 1. -/
theorem test_rd_status : after (exec .rdStatus { jobDone with err := 0b10 }) State.rdata = some 0x0000000A := by decide
/-- V-HC-5. -/
theorem test_wr_status : after (exec (.wrStatus 0xFFFFFFFF) jobB) id = some jobB := by decide
theorem test_wr_result : after (exec (.wrResult 5) jobDone) id = some jobDone := by decide
/-- R197. -/
theorem test_rd_result : after (exec .rdResult jobDone) State.rdata = some 16 := by decide
/-- V-HC-3. -/
theorem test_wr_cap_while_busy : after (exec (.wrArg .outCap 0) jobB) State.outCap = some 16 := by decide
theorem test_wr_in_len : after (exec (.wrArg .inLen 0xFFFFFFFF) jobDone) State.inLen = some 0xFFFFFFFF := by decide
/-- R199. -/
theorem test_rd_out_addr : after (exec (.rdArg .outAddr) jobB) State.rdata = some 0x2000 := by decide
/-- V-HC-1. -/
theorem test_reserved_reads_zero : after (exec (.reserved .read) { jobB with rdata := 7 }) State.rdata = some 0 := by decide

/-! ### VALIDATE (section 7) -/

/-- V-IA-1 to V-IA-5 and V-IA-8. -/
theorem test_validate_null_input : after (engineStep { jobB with inAddr := 0 }) (fun s => (s.statusWord, s.result)) = some (6, 0xFFFFFFFF) := by decide
theorem test_validate_too_long : after (engineStep { jobB with inLen := 0x01000000 }) State.err = some 1 := by decide
theorem test_validate_overlap : after (engineStep { jobB with inAddr := 0x2004, inLen := 8 }) State.err = some 1 := by decide
theorem test_validate_wrap : after (engineStep { jobB with outAddr := 0xFFFFFFF8 }) State.err = some 1 := by decide
/-- V-IA-6: a region may end at the top of the address space. -/
theorem test_validate_top : after (engineStep { jobB with outAddr := 0xFFFFFFF0 }) State.phase = some .header := by decide
/-- V-IA-7. -/
theorem test_validate_empty_input : after (engineStep { jobB with inAddr := 0, inLen := 0 }) State.phase = some .header := by decide

/-! ### The end of a run -/

/-- A job with a null output pointer (R211), started after a read of an earlier job's DONE and followed by reads. -/
def runNullOutput : State :=
  { jobDone with
    outAddr := 0, outCap := 2,
    hostOps := [rd 0x04, wr 0x00 1, .waitDone, wr 0x0C 0, wr 0x14 0, wr 0x00 1, .waitDone] }

/-- The end of a run, if it came to one. -/
def endOf (o : Host.Outcome Progress Fault Refusal) : Option RunEnd :=
  match o with
  | .next (.ended e) => some e
  | .next (.going _ _) => none
  | .fault _ => none
  | .refused _ => none

/-- R204: neither the read of the earlier DONE before the START ends the run, nor does it go on past the first after it. -/
theorem test_run_ends_at_first_read :
    endOf (runToEnd 9 none runNullOutput) = some ⟨0x00000006, 0xFFFFFFFF, [0, 0]⟩ := by decide
theorem test_run_not_ended_before_start : after (step runNullOutput) State.acceptsStart = some true := by decide

/-! ### MatchFinder, TokenSelector and the whole job -/

/-- The input of V-TS-3. -/
def inputT3 : List Byte :=
  [0x30, 0x31, 0x32, 0x33, 0x58, 0x59, 0x5A, 0x57, 0x56, 0x39, 0x3A, 0x3B] ++
    [0x58, 0x59, 0x5A, 0x71, 0x40, 0x41, 0x42, 0x43, 0x58, 0x59, 0x5A, 0x57, 0x56]

/-- V-MF-4 and V-MF-6. -/
theorem test_find_nearest : find (fun _ => 0) 20 9 3 = 8 := by decide
theorem test_find_no_room : find (fun _ => 0) 20 8 13 = 0 := by decide
/-- V-MF-13: the repeat at distance 7 is not probed. -/
theorem test_find_never_seven : find (fun i => BitVec.ofNat 8 (0x61 + i % 7)) 21 13 3 = 0 := by decide
/-- V-TS-3. -/
theorem test_select_keeps_last : select (byteAt inputT3) 25 20 = (.backRef 5 16, 25) := by decide
/-- V-OE-7. -/
theorem test_compress_exhausted : compress [0xAB] 7 = .error [0x10, 1, 0, 0, 0, 0xAB, 0] := by decide
/-- V-BW-6. -/
theorem test_compress_empty : compress [] 4 = .ok [0x10, 0, 0, 0] := by decide
/-- Section 8. -/
theorem test_bound : compressBound 100 = 207 ∧ requirement [1, 2, 3, 4, 5, 6, 7, 8, 9] = 16 := by decide

/-! ### Witnesses: a state and operands that meet the premises of each statement, clause by clause

Where a statement has several clauses, each has a witness at a boundary of its range. -/

/-- The job about to write its header. -/
def jobHeader (c : Word) : State := { jobCap c with phase := .header }

/-- The host moves next with one operation, the job of V-SRC-B not yet validated. -/
def hostTurn (o : HostOp) (s : State) : State := { s with sched := [.host], hostOps := [o] }

theorem inv_reset_idle : Inv { State.reset with done := true, result := 4 } := by constructor <;> decide
theorem inv_validate : Inv jobB := by constructor <;> decide
theorem inv_header : Inv (jobHeader 16) := by constructor <;> decide
theorem inv_token : Inv (jobToken 16 8 13 0) := by constructor <;> decide
theorem inv_token_end : Inv (jobToken 16 12 16 0) := by constructor <;> decide
theorem inv_pad : Inv (jobPad 16 15) := by constructor <;> decide
theorem inv_done : Inv jobDone := by constructor <;> decide

theorem witness_DecodeOfEncode : (Instr.backRef 18 4096).wf = true := by decide
theorem witness_EncodeOfDecode :
    decode (.stream (.token true) [0xFF, 0xFF]) = .ok (.backRef 18 4096) ∧
      decode (.bus true ⟨0x1C, 4, .read⟩) = .ok (.reserved .read) := by decide
theorem witness_HeaderIsLittleEndian : (0xFFFFFF : Nat) ≤ 0xFFFFFF := by decide
theorem witness_MatchTokenFields : 3 ≤ 18 ∧ 18 ≤ 18 ∧ 1 ≤ 4096 ∧ 4096 ≤ 4096 := by decide
theorem witness_FlagByteClassifies :
    (List.replicate 8 (Token.backRef 3 8)).length ≤ 8 ∧
      (List.replicate 8 (Token.backRef 3 8))[7]? = some (.backRef 3 8) ∧ ([] : List Token).length ≤ 0 ∧ 0 < 8 := by decide
theorem witness_StreamReadsBack :
    (∀ tok ∈ [Token.literal 1, Token.backRef 18 4096], tok.wf = true) ∧
      ([Token.literal 1, Token.backRef 18 4096].map Token.span).sum = 19 := by decide
theorem witness_WindowAtRegBase : 32 ≤ (Config.regBase + 32 - Config.regBase).toNat := by
  rw [BitVec.add_comm, BitVec.add_sub_cancel]; decide
theorem witness_FindGivesNearestMatch :
    20 < 8 + 13 ∧ (8 + 12 ≤ 20 ∧ 0 < 8) ∧ find (fun _ => 0) 20 8 12 = 8 := by decide
theorem witness_FindMonotoneInLength :
    3 ≤ 12 ∧ 0 < find (fun _ => 0) 20 8 12 ∧ find (fun _ => 0) 10 8 3 = 0 := by decide
theorem witness_SelectReadsOnlyInput :
    8 < 20 ∧ ∀ i < 20, (fun _ => 0 : Nat → Byte) i = (fun j => if j < 20 then 0 else 1 : Nat → Byte) i := by decide
theorem witness_SelectAdvances :
    11 < 12 ∧ (select (fun _ => 0) 12 11).1 = .literal 0 ∧ (select (fun _ => 0) 27 8).1 = .backRef 18 8 := by decide
theorem witness_SelectIsLongestMatch : 8 < 27 ∧ select (fun _ => 0) 27 8 = (.backRef 18 8, 8 + 18) := by decide
theorem witness_AppendAllOrNothing :
    ([0, 0] : List Byte) ≠ [] ∧ (jobToken 14 8 13 0).cap < (jobToken 14 8 13 0).cursor + 2 ∧
      (jobToken 15 8 13 0).cursor + 2 ≤ (jobToken 15 8 13 0).cap ∧ (jobToken 15 8 13 0).outRegion.fits = true ∧
      (jobToken 15 8 13 0).mem.wf := by decide
theorem witness_HeaderStep_fits :
    0xFFFFFF ≤ 0xFFFFFF ∧ (jobHeader 4).cursor + 4 ≤ (jobHeader 4).cap ∧ (jobHeader 4).outRegion.fits = true := by decide
theorem witness_HeaderStep_exhausted : (jobHeader 3).cap < (jobHeader 3).cursor + 4 := by decide
theorem witness_FlagReserves_fits :
    (jobToken 5 0 4 0).count = 0 ∧ (jobToken 5 0 4 0).cursor + 1 ≤ (jobToken 5 0 4 0).cap ∧
      (jobToken 5 0 4 0).outRegion.fits = true := by decide
theorem witness_FlagReserves_exhausted :
    (jobToken 4 0 4 0).count = 0 ∧ (jobToken 4 0 4 0).cap < (jobToken 4 0 4 0).cursor + 1 := by decide
theorem witness_FlagWritesBack :
    0 < (jobToken 5 1 5 1).count ∧ (jobToken 5 1 5 1).flagPos < (jobToken 5 1 5 1).cap ∧
      (jobToken 5 1 5 1).outRegion.fits = true := by decide
theorem witness_LiteralStep_fits :
    (jobToken 6 0 4 0).outRegion.fits = true ∧ (0 < (jobToken 6 0 4 0).count → (jobToken 6 0 4 0).flagPos < 4) ∧
      (opened (jobToken 6 0 4 0)).cursor + 1 ≤ (jobToken 6 0 4 0).cap := by decide
theorem witness_LiteralStep_closes :
    (jobToken 13 7 12 7).outRegion.fits = true ∧ (0 < (jobToken 13 7 12 7).count → (jobToken 13 7 12 7).flagPos < 12) ∧
      (opened (jobToken 13 7 12 7)).cursor + 1 ≤ (jobToken 13 7 12 7).cap := by decide
theorem witness_LiteralStep_noFlagByte :
    (jobToken 4 0 4 0).count = 0 ∧ (jobToken 4 0 4 0).cap < (jobToken 4 0 4 0).cursor + 1 ∧
      (jobToken 4 0 4 0).outRegion.fits = true := by decide
theorem witness_LiteralStep_noByte :
    ((jobToken 5 0 4 0).count = 0 → (jobToken 5 0 4 0).cursor + 1 ≤ (jobToken 5 0 4 0).cap) ∧
      (jobToken 5 0 4 0).cap < (opened (jobToken 5 0 4 0)).cursor + 1 ∧ (jobToken 5 0 4 0).outRegion.fits = true := by decide
theorem witness_MatchStep_fits :
    (jobToken 16 8 13 0).outRegion.fits = true ∧ (0 < (jobToken 16 8 13 0).count → (jobToken 16 8 13 0).flagPos < 13) ∧
      (opened (jobToken 16 8 13 0)).cursor + 2 ≤ (jobToken 16 8 13 0).cap := by decide
theorem witness_MatchStep_noFlagByte :
    (jobToken 13 8 13 0).count = 0 ∧ (jobToken 13 8 13 0).cap < (jobToken 13 8 13 0).cursor + 1 ∧
      (jobToken 13 8 13 0).outRegion.fits = true := by decide
theorem witness_MatchStep_noBytes :
    ((jobToken 15 8 13 0).count = 0 → (jobToken 15 8 13 0).cursor + 1 ≤ (jobToken 15 8 13 0).cap) ∧
      (jobToken 15 8 13 0).cap < (opened (jobToken 15 8 13 0)).cursor + 2 ∧
      (jobToken 15 8 13 0).outRegion.fits = true := by decide
theorem witness_PadStep_completes : (jobPad 16 16).cursor % 4 = 0 := by decide
theorem witness_PadStep_fits :
    (jobPad 16 15).cursor % 4 ≠ 0 ∧ (jobPad 16 15).cursor + 1 ≤ (jobPad 16 15).cap ∧
      (jobPad 16 15).outRegion.fits = true := by decide
theorem witness_PadStep_exhausted : (jobPad 15 15).cursor % 4 ≠ 0 ∧ (jobPad 15 15).cap < (jobPad 15 15).cursor + 1 := by decide
theorem witness_StartAccepted : (1 : Word).getLsbD 0 = true ∧ jobDone.busy = false := by decide
theorem witness_OtherCtrlWritesIgnored :
    ((1 : Word).getLsbD 0 = true ∧ jobB.busy = true) ∧ (0xFFFFFFFE : Word).getLsbD 0 = false := by decide
theorem witness_ResultAccess : Inv jobB ∧ jobB.busy = true := ⟨inv_validate, by decide⟩
theorem witness_ArgumentWrite : jobDone.busy = false ∧ jobB.busy = true := by decide
theorem witness_MemoryFrame :
    (∃ t, exec (.lit 9) (jobToken 16 8 13 0) = .next t) ∧ storesAt (.lit 9) (jobToken 16 8 13 0) 0x200C = false ∧
      storesAt (.lit 9) (jobToken 16 8 13 0) 0x200F = false ∧ storesAt (.lit 9) (jobToken 16 8 13 0) 0x200E = true :=
  ⟨⟨_, rfl⟩, by decide, by decide, by decide⟩
theorem witness_RegisterFrame :
    (∃ t, exec .pad (jobPad 16 15) = .next t) ∧ isElement .pad = true ∧ (∃ t, exec .rdStatus jobB = .next t) ∧
      isHostRead .rdStatus = true ∧ (∃ t, exec (.wrArg .inLen 3) jobDone = .next t) ∧
      isElement (.wrArg .inLen 3) = false ∧ isHostRead (.wrArg .inLen 3) = false :=
  ⟨⟨_, rfl⟩, by decide, ⟨_, rfl⟩, by decide, ⟨_, rfl⟩, by decide, by decide⟩
theorem witness_StepRunsHostAccess :
    (hostTurn (rd 0x18) jobB).turn = .host ∧
      decodeAccess (hostTurn (rd 0x18) jobB).busy { offset := 0x18, width := 4, op := .read } = .ok .rdResult := by decide
theorem witness_StepRunsEngineElement :
    (jobToken 16 8 13 0).turn = .engine ∧ (jobToken 16 8 13 0).engineElement = some (.backRef 4 8) ∧
      (jobToken 16 8 13 0).inRegion.fits = true := by decide
theorem witness_MalformedAccessRefused :
    (hostTurn (.access ⟨0x04, 1, .read⟩) jobB).turn = .host ∧ (1 : Nat) ≠ 4 ∧ (0x1F : BitVec 5).toNat % 4 ≠ 0 := by decide
theorem witness_ValidateDecides_valid :
    jobB.phase = .validate ∧ jobB.regionOnDevice = false ∧ jobB.argsInvalid = false := by decide
/-- One more input byte or one more output byte than fits, and the other conditions, each alone at its boundary. -/
theorem witness_ValidateDecides_invalid :
    ({ jobB with inAddr := 0, inLen := 1 } : State).nullInput = true ∧
      ({ jobB with outAddr := 0, outCap := 1 } : State).nullOutput = true ∧
      0xFFFFFF < ({ jobB with inLen := 0x1000000 } : State).inLen.toNat ∧
      ({ jobB with inAddr := 0x200F, inLen := 1 } : State).regionsOverlap = true ∧
      2 ^ 32 < ({ jobB with inAddr := 0xFFFFFFF5 } : State).inAddr.toNat + jobB.inLen.toNat ∧
      2 ^ 32 < ({ jobB with outAddr := 0xFFFFFFF1 } : State).outAddr.toNat + jobB.outCap.toNat := by decide
theorem witness_EnginePhases :
    (Inv jobDone ∧ ∃ t, engineStep jobDone = .next t) ∧ (Inv jobB ∧ ∃ t, engineStep jobB = .next t) ∧
      (Inv (jobHeader 16) ∧ ∃ t, engineStep (jobHeader 16) = .next t) ∧
      (Inv (jobToken 16 12 16 0) ∧ ∃ t, engineStep (jobToken 16 12 16 0) = .next t) ∧
      (Inv (jobPad 16 15) ∧ ∃ t, engineStep (jobPad 16 15) = .next t) :=
  ⟨⟨inv_done, _, rfl⟩, ⟨inv_validate, _, rfl⟩, ⟨inv_header, _, rfl⟩, ⟨inv_token_end, _, rfl⟩, ⟨inv_pad, _, rfl⟩⟩
theorem witness_EnginePhases_loopEnd : (jobToken 16 12 16 0).phase = .token ∧ (jobToken 16 12 16 0).off = (jobToken 16 12 16 0).n := by
  decide
theorem witness_EngineEmitsWellFormed :
    Inv (jobToken 16 8 13 0) ∧ (jobToken 16 8 13 0).engineElement = some (.backRef 4 8) := ⟨inv_token, by decide⟩
theorem witness_HostCannotDisturbJob :
    (hostTurn (wr 0x14 0) jobB).busy = true ∧ (hostTurn (wr 0x14 0) jobB).turn = .host ∧
      (∃ t, step (hostTurn (wr 0x14 0) jobB) = .next t) ∧ inJobRegion jobB 0x1000 = true ∧ inJobRegion jobB 0x200F = true :=
  ⟨by decide, by decide, ⟨_, rfl⟩, by decide, by decide⟩
theorem witness_HostWriteDuringJobRefused :
    (hostTurn (.memWrite 0x100B 0) jobB).turn = .host ∧ (hostTurn (.memWrite 0x100B 0) jobB).busy = true ∧
      inJobRegion (hostTurn (.memWrite 0x100B 0) jobB) (0x100B : Word).toNat = true ∧
      (hostTurn (.memWrite 0x100B 0) jobB).isDevice (0x100B : Word).toNat = false := by decide
theorem witness_OutputReadDuringJobOpen :
    (hostTurn (.memRead 0x200F) jobB).turn = .host ∧ (hostTurn (.memRead 0x200F) jobB).busy = true ∧
      (hostTurn (.memRead 0x200F) jobB).outRegion.contains (0x200F : Word).toNat = true ∧
      (hostTurn (.memRead 0x200F) jobB).isDevice (0x200F : Word).toNat = false := by decide
theorem witness_DeviceLaunchRefused :
    ({ jobB with devices := [⟨0x200F, 1⟩] } : State).phase = .validate ∧
      ({ jobB with devices := [⟨0x200F, 1⟩] } : State).argsInvalid = false ∧
      ({ jobB with devices := [⟨0x200F, 1⟩] } : State).regionOnDevice = true := by decide
theorem witness_HostMemoryReadsBack :
    (hostTurn (.memWrite 0xFFFFFFFF 0) jobDone).turn = .host ∧ (hostTurn (.memWrite 0xFFFFFFFF 0) jobDone).busy = false ∧
      (hostTurn (.memWrite 0xFFFFFFFF 0) jobDone).isDevice (0xFFFFFFFF : Word).toNat = false ∧
      (hostTurn (.memWrite 0xFFFFFFFF 0) jobDone).mem.wf ∧
      (hostTurn (.memRead 0xFFFFFFFF) jobDone).hostOps = [.memRead 0xFFFFFFFF] := by decide
theorem witness_ResultStaysUntilStart :
    Inv jobDone ∧ jobDone.done = true ∧ ∃ t, step jobDone = .next t := ⟨inv_done, rfl, _, rfl⟩
theorem witness_BlockReset :
    (hostTurn .resetBlock jobB).turn = .host ∧ (hostTurn .resetBlock jobB).hostOps = .resetBlock :: [] ∧
      (hostTurn .resetBlock State.reset).phase = .idle := by decide
theorem witness_InvariantKept :
    Inv (jobToken 16 8 13 0) ∧ ∃ t, step (jobToken 16 8 13 0) = .next t := ⟨inv_token, _, rfl⟩
theorem witness_NoFault : Inv (jobPad 16 15) := inv_pad
theorem witness_RegionsDisjoint :
    Inv (jobHeader 16) ∧ (jobHeader 16).pastValidate = true ∧ 11 < (jobHeader 16).n ∧ 15 < (jobHeader 16).cap :=
  ⟨inv_header, by decide, by decide, by decide⟩
theorem witness_EngineWritesOnlyOutput :
    Inv (jobToken 16 8 13 0) ∧ (∃ t, engineStep (jobToken 16 8 13 0) = .next t) ∧
      (jobToken 16 8 13 0).pastValidate = true ∧ (jobToken 16 8 13 0).outRegion.contains 0x2010 = false :=
  ⟨inv_token, ⟨_, rfl⟩, by decide, by decide⟩
theorem witness_JobTerminates :
    Inv jobB ∧ jobB.busy = true ∧ jobB.sched = [] ∧ (jobB.phase = .validate → jobB.regionOnDevice = false) :=
  ⟨inv_validate, by decide, by decide, by decide⟩
theorem witness_WaitDoneEnds_turn :
    (hostTurn .waitDone jobB).turn = .host ∧ (hostTurn .waitDone jobB).hostOps = .waitDone :: [] ∧
      (hostTurn .waitDone jobB).done = false ∧ (hostTurn .waitDone jobDone).done = true := by decide
theorem witness_WaitDoneEnds_busy :
    Inv (hostTurn .waitDone jobB) ∧ (hostTurn .waitDone jobB).busy = true ∧
      ((hostTurn .waitDone jobB).phase = .validate → (hostTurn .waitDone jobB).regionOnDevice = false) :=
  ⟨by constructor <;> decide, by decide, by decide⟩
theorem witness_WaitDoneEnds_done :
    Inv (hostTurn .waitDone jobDone) ∧ (hostTurn .waitDone jobDone).done = true ∧ jobDone.phase ≠ .validate :=
  ⟨by constructor <;> decide, by decide, by decide⟩
theorem witness_WaitDoneEnds_run :
    Inv { jobDone with hostOps := [wr 0x00 1, .waitDone] } ∧
      ({ jobDone with hostOps := [wr 0x00 1, .waitDone] } : State).acceptsStart = true ∧
      ({ jobDone with hostOps := [wr 0x00 1, .waitDone] } : State).regionOnDevice = false :=
  ⟨by constructor <;> decide, by decide, by decide⟩
theorem witness_ReferenceGivesStream : requirement [0xAB] ≤ 8 ∧ 7 < requirement [0xAB] := by decide
theorem witness_JobEqualsReference_ok :
    CleanLaunch jobB ∧ jobB.argsInvalid = false ∧
      compress jobB.inputBytes jobB.cap = .ok [0x10, 12, 0, 0, 0, 1, 2, 3, 4, 5, 6, 7, 8, 0x80, 0x10, 0x07] :=
  ⟨⟨inv_validate, by decide, by decide, by decide⟩, by decide, by decide⟩
theorem witness_JobEqualsReference_error :
    CleanLaunch (jobCap 15) ∧ (jobCap 15).argsInvalid = false ∧
      compress (jobCap 15).inputBytes (jobCap 15).cap = .error [0x10, 12, 0, 0, 0, 1, 2, 3, 4, 5, 6, 7, 8, 0x00] :=
  ⟨⟨by constructor <;> decide, by decide, by decide, by decide⟩, by decide, by decide⟩
theorem witness_CompressBoundSuffices : compressBound ([0xAB] : List Byte).length ≤ 9 := by decide
theorem witness_AllLiteralIsLongest : ∀ tok ∈ tokensOf [1, 2, 3, 4, 5, 6, 7, 8, 9], tok.isMatch = false := by decide
theorem witness_StreamShape : ([0xAB] : List Byte).length ≤ 0xFFFFFF ∧ compress [0xAB] 8 = .ok [0x10, 1, 0, 0, 0, 0xAB, 0, 0] := by
  decide

end Sys2Proof.Tests
end

/-! ### Parameters (settled) -/

namespace Sys2Proof.Proofs

open Sys2Proof Sys2Proof.Machine

/-- The RESULT word of InvalidArgument, read as a signed number (R220). -/
@[simp] theorem errInvalidArgument_toInt : Config.errInvalidArgument.toInt = -1 := by decide

/-- The RESULT word of OutputExhausted, read as a signed number (R220). -/
@[simp] theorem errOutputExhausted_toInt : Config.errOutputExhausted.toInt = -2 := by decide

/-- Settles O1: the constants of R6 by their definitions, the two codes of R220 by their signed readings. -/
theorem parameterValues : Obligations.ParameterValues :=
  ⟨rfl, rfl, rfl, rfl, rfl, rfl, rfl, rfl, errInvalidArgument_toInt, errOutputExhausted_toInt⟩

end Sys2Proof.Proofs

/-! ### The header's four bytes (R55, R71) -/

namespace Sys2Proof.Proofs

open Sys2Proof Sys2Proof.Machine

/-- The tag lies below the shifted length, so the `|||` of R71 is a sum. -/
theorem headerWord_eq (n : Nat) : headerWord n = n * 256 + 0x10 := by
  rw [headerWord, Config.formatTag, ← Nat.shiftLeft_add_eq_or_of_lt (by decide), Nat.shiftLeft_eq]

theorem byteOf_eq (v i : Nat) : byteOf v i = BitVec.ofNat 8 (v / 2 ^ (8 * i)) := by
  rw [byteOf, Nat.shiftRight_eq_div_pow]

/-- The low byte of the header word is the tag, and the bytes above it are those of the length (R55). -/
theorem headerBytes_eq (n : Nat) :
    headerBytes n = [0x10, BitVec.ofNat 8 n, BitVec.ofNat 8 (n / 256), BitVec.ofNat 8 (n / 65536)] := by
  have h0 : BitVec.ofNat 8 (n * 256 + 0x10) = 0x10#8 := by
    apply BitVec.eq_of_toNat_eq
    rw [BitVec.toNat_ofNat, BitVec.toNat_ofNat]
    omega
  have h1 : (n * 256 + 0x10) / 256 = n := by omega
  have h2 : (n * 256 + 0x10) / 65536 = n / 256 := by omega
  have h3 : (n * 256 + 0x10) / 16777216 = n / 65536 := by omega
  simp [headerBytes, headerWord_eq, byteOf_eq, h0, h1, h2, h3]

/-- Three bytes hold every length of at most 24 bits, so the header spells its whole word. -/
theorem leNat_headerBytes {n : Nat} (h : n ≤ Config.maxInputLength) : leNat (headerBytes n) = n * 256 + 0x10 := by
  rw [Config.maxInputLength] at h
  simp only [headerBytes_eq, leNat, BitVec.reduceToNat, BitVec.toNat_ofNat]
  omega

/-- Settles O5: the bytes of the header word one by one, and the word they spell. -/
theorem headerIsLittleEndian : Obligations.HeaderIsLittleEndian :=
  fun n h => ⟨headerBytes_eq n, leNat_headerBytes h⟩

end Sys2Proof.Proofs

/-! ### The engine writes only below the cursor of the output region (R51, R53) -/

namespace Sys2Proof.Proofs

open Sys2Proof Sys2Proof.Machine

/-- What the pieces of an engine step keep, in a form that composes: the regions stay where they are, the cursor does not
move back, and every byte that changed is an Out[j] inside the capacity and below the new cursor. -/
structure WritesBelowCursor (s t : State) : Prop where
  inAddr : t.inAddr = s.inAddr
  outAddr : t.outAddr = s.outAddr
  outCap : t.outCap = s.outCap
  cursor_le : s.cursor ≤ t.cursor
  changed : ∀ a : Nat, t.mem.read a ≠ s.mem.read a → ∃ j < t.cursor, j < s.cap ∧ a = s.outAt j

namespace WritesBelowCursor

variable {s t u : State}

theorem trans (h : WritesBelowCursor s t) (h' : WritesBelowCursor t u) : WritesBelowCursor s u where
  inAddr := h'.inAddr.trans h.inAddr
  outAddr := h'.outAddr.trans h.outAddr
  outCap := h'.outCap.trans h.outCap
  cursor_le := h.cursor_le.trans h'.cursor_le
  changed a ha := by
    by_cases hu : u.mem.read a = t.mem.read a
    · obtain ⟨j, hj, hcap, rfl⟩ := h.changed a (hu ▸ ha)
      exact ⟨j, hj.trans_le h'.cursor_le, hcap, rfl⟩
    · obtain ⟨j, hj, hcap, rfl⟩ := h'.changed a hu
      exact ⟨j, hj, by rwa [State.cap, h.outCap] at hcap, by rw [State.outAt, h.outAddr, State.outAt]⟩

/-- Storing bytes at Out[j] and up, inside the capacity and below the new cursor. -/
theorem of_writeBytes {j : Nat} {bs : List Byte} (hin : t.inAddr = s.inAddr) (hout : t.outAddr = s.outAddr)
    (hcap : t.outCap = s.outCap) (hmem : t.mem = s.mem.writeBytes (s.outAt j) bs) (hle : s.cursor ≤ t.cursor)
    (hj : j + bs.length ≤ t.cursor) (hjcap : j + bs.length ≤ s.cap) : WritesBelowCursor s t where
  inAddr := hin
  outAddr := hout
  outCap := hcap
  cursor_le := hle
  changed a ha := by
    have hstored : s.outAt j ≤ a ∧ a < s.outAt j + bs.length := by
      by_contra hnot
      exact ha (by rw [hmem, Memory.read_writeBytes_outside (by omega)])
    unfold State.outAt at *
    exact ⟨a - s.outAddr.toNat, by omega, by omega, by omega⟩

/-- Leaving memory and the cursor alone. -/
theorem of_mem_eq (hin : t.inAddr = s.inAddr) (hout : t.outAddr = s.outAddr) (hcap : t.outCap = s.outCap)
    (hmem : t.mem = s.mem) (hle : s.cursor ≤ t.cursor) : WritesBelowCursor s t :=
  of_writeBytes (j := 0) (bs := []) hin hout hcap hmem hle (Nat.zero_le _) (Nat.zero_le _)

theorem refl (s : State) : WritesBelowCursor s s := of_mem_eq rfl rfl rfl rfl le_rfl

/-- The end of a job by an error writes nothing (R216). -/
theorem terminate (h : WritesBelowCursor s t) (e : JobError) : WritesBelowCursor s (t.terminate e) :=
  h.trans (of_mem_eq rfl rfl rfl rfl le_rfl)

/-- A byte that is no Out[j] inside the capacity and below the new cursor stays. -/
theorem read_eq (h : WritesBelowCursor s t) {a : Nat} (ha : ∀ j < t.cursor, j < s.cap → a ≠ s.outAt j) :
    t.mem.read a = s.mem.read a := by
  by_contra hne
  obtain ⟨j, hj, hcap, heq⟩ := h.changed a hne
  exact ha j hj hcap heq

theorem onlyOutputWritten (h : WritesBelowCursor s t) : onlyOutputWritten s t := by
  intro a ha
  refine h.read_eq fun j _ hcap heq => ?_
  rw [Region.contains_eq_false] at ha
  simp only [State.outRegion, heq, State.outAt] at ha
  omega

theorem outByte_eq (h : WritesBelowCursor s t) {j : Nat} (hj : t.cursor ≤ j) : t.outByte j = s.outByte j := by
  rw [State.outByte, State.outAt, h.outAddr]
  refine h.read_eq fun i hi _ heq => ?_
  unfold State.outAt at heq
  omega

/-- Valid arguments keep the input apart from the output region (R214), so the input stays. -/
theorem inByte_eq (h : WritesBelowCursor s t) (hargs : s.argsInvalid = false) {i : Nat} (hi : i < s.n) :
    t.inByte i = s.inByte i := by
  have hin : s.inRegion.contains (s.inAt i) = true :=
    (State.inRegion_contains _ _).2 ⟨Nat.add_le_add_left (Nat.zero_le i) _, Nat.add_lt_add_left hi _⟩
  rw [State.inByte, State.inAt, h.inAddr]
  exact h.onlyOutputWritten _ (State.disjoint_of_argsValid hargs hin)

end WritesBelowCursor

/-! #### The writers -/

section
variable {s t : State}

theorem append_writesBelowCursor {bs : List Byte} (h : s.append bs = .ok t) : WritesBelowCursor s t := by
  obtain ⟨hcap, -, rfl⟩ := State.append_eq_ok.1 h
  exact .of_writeBytes rfl rfl rfl rfl (Nat.le_add_right _ _) le_rfl hcap

/-- A failing append writes nothing (R161). -/
theorem append_raise_writesBelowCursor {bs : List Byte} {e : JobError} (h : s.append bs = .raise e t) :
    WritesBelowCursor s t := by
  obtain ⟨-, -, rfl⟩ := State.append_eq_raise.1 h
  exact .refl _

/-- Group open stores at most the byte at the cursor, and leaves the group's flag byte below the cursor (R141, R146). -/
theorem openGroup_writesBelowCursor (hflag : 0 < s.count → s.flagPos < s.cursor) (h : s.openGroup = .ok t) :
    WritesBelowCursor s t ∧ t.flagPos < t.cursor := by
  rcases State.openGroup_eq_ok.1 h with ⟨-, hres⟩ | ⟨hcount, rfl⟩
  · obtain ⟨hcap, -, rfl⟩ := State.reserveFlag_eq_ok.1 hres
    exact ⟨.of_writeBytes (j := s.cursor) (bs := [0]) rfl rfl rfl rfl (Nat.le_succ _) le_rfl hcap, Nat.lt_succ_self _⟩
  · exact ⟨.refl _, hflag (Nat.pos_of_ne_zero hcount)⟩

/-- A token's bytes go from the cursor on, and the cursor moves past them inside the capacity (R142, R143). -/
theorem putToken_writesBelowCursor {tok : Token} (h : s.putToken tok = .ok t) :
    WritesBelowCursor s t ∧ t.flagPos = s.flagPos ∧ t.cursor ≤ t.cap := by
  obtain ⟨hcap, -, rfl⟩ := State.putToken_eq_ok.1 h
  exact ⟨.of_writeBytes rfl rfl rfl rfl (Nat.le_add_right _ _) le_rfl hcap, rfl, hcap⟩

/-- Group close stores at most the reserved flag byte, which lies below the cursor (R145, R146). -/
theorem closeGroup_writesBelowCursor {next : Nat} (hflag : s.flagPos < s.cursor) (hcap : s.cursor ≤ s.cap)
    (h : s.closeGroup next = .ok t) : WritesBelowCursor s t := by
  rcases State.closeGroup_eq_ok.1 h with ⟨-, hwrite⟩ | ⟨-, rfl⟩
  · obtain ⟨-, rfl⟩ := State.writeFlag_eq_ok.1 hwrite
    exact .of_writeBytes (j := s.flagPos) (bs := [s.flagVal]) rfl rfl rfl rfl le_rfl hflag (hflag.trans_le hcap)
  · exact .refl _

theorem emit_writesBelowCursor {tok : Token} {next : Nat} (hflag : 0 < s.count → s.flagPos < s.cursor)
    (h : s.emit tok next = .ok t) : WritesBelowCursor s t := by
  obtain ⟨u, v, hopen, hput, hclose⟩ := State.emit_eq_ok.1 h
  obtain ⟨hsu, hu⟩ := openGroup_writesBelowCursor hflag hopen
  obtain ⟨huv, hpos, hcap⟩ := putToken_writesBelowCursor hput
  have hv : v.flagPos < v.cursor := hpos ▸ hu.trans_le huv.cursor_le
  exact (hsu.trans huv).trans (closeGroup_writesBelowCursor hv hcap hclose)

/-- Where emit raises an error, at most the flag byte has been reserved (R150). -/
theorem emit_raise_writesBelowCursor {tok : Token} {next : Nat} {e : JobError}
    (hflag : 0 < s.count → s.flagPos < s.cursor) (h : s.emit tok next = .raise e t) : WritesBelowCursor s t := by
  rcases State.emit_eq_raise.1 h with hopen | ⟨u, hopen, hput⟩
  · obtain ⟨-, hres⟩ := State.openGroup_eq_raise.1 hopen
    obtain ⟨-, -, rfl⟩ := State.reserveFlag_eq_raise.1 hres
    exact .of_mem_eq rfl rfl rfl rfl le_rfl
  · obtain ⟨-, -, rfl⟩ := State.putToken_eq_raise.1 hput
    exact (openGroup_writesBelowCursor hflag hopen).1

/-! #### The engine's steps -/

/-- An effect that writes below the cursor does so as a whole step, ended by an error or not (R216). -/
theorem outcome_writesBelowCursor {e : Effect} (hok : ∀ u, e = .ok u → WritesBelowCursor s u)
    (hraise : ∀ j u, e = .raise j u → WritesBelowCursor s u) (h : e.outcome = .next t) : WritesBelowCursor s t := by
  rcases Effect.outcome_eq_next.1 h with hgo | ⟨j, u, herr, rfl⟩
  · exact hok t hgo
  · exact (hraise j u herr).terminate j

theorem validateStep_writesBelowCursor (h : validateStep s = .next t) : WritesBelowCursor s t := by
  unfold validateStep at h
  split at h
  · cases h
    exact (WritesBelowCursor.refl s).terminate _
  · split at h
    · cases h
    · cases h
      exact .of_mem_eq rfl rfl rfl rfl le_rfl

theorem execHeader_writesBelowCursor {n : Nat} (h : execHeader n s = .next t) : WritesBelowCursor s t := by
  refine outcome_writesBelowCursor (fun u hu => ?_) (fun j u hu => ?_) h
  · obtain ⟨v, hv, hu⟩ := Effect.andThen_eq_ok.1 hu
    cases hu
    exact (append_writesBelowCursor hv).trans (.of_mem_eq rfl rfl rfl rfl le_rfl)
  · rcases Effect.andThen_eq_raise.1 hu with hu | ⟨v, -, hv⟩
    · exact append_raise_writesBelowCursor hu
    · cases hv

/-- LIT and MATCH are the emission of their token. -/
theorem exec_toInstr (tok : Token) (s : State) : exec tok.toInstr s = (s.emitToken tok).outcome := by
  cases tok <;> rfl

theorem exec_toInstr_writesBelowCursor {tok : Token} (hflag : 0 < s.count → s.flagPos < s.cursor)
    (h : exec tok.toInstr s = .next t) : WritesBelowCursor s t := by
  rw [exec_toInstr] at h
  refine outcome_writesBelowCursor (fun u hu => ?_) (fun j u hu => ?_) h
  · obtain ⟨v, hv, rfl⟩ := State.emitToken_eq_ok.1 hu
    exact (emit_writesBelowCursor hflag hv).trans (.of_mem_eq rfl rfl rfl rfl le_rfl)
  · exact emit_raise_writesBelowCursor hflag (State.emitToken_eq_raise.1 hu)

theorem tokenStep_writesBelowCursor (hflag : 0 < s.count → s.flagPos < s.cursor) (h : tokenStep s = .next t) :
    WritesBelowCursor s t := by
  unfold tokenStep at h
  split at h
  · cases h
    exact .of_mem_eq rfl rfl rfl rfl le_rfl
  · split at h
    · exact exec_toInstr_writesBelowCursor hflag h
    · cases h

theorem execPad_writesBelowCursor (h : execPad s = .next t) : WritesBelowCursor s t := by
  unfold execPad at h
  split at h
  · cases h
    exact .of_mem_eq rfl rfl rfl rfl le_rfl
  · exact outcome_writesBelowCursor (fun _ => append_writesBelowCursor) (fun _ _ => append_raise_writesBelowCursor) h

theorem engineStep_writesBelowCursor (hinv : Inv s) (h : engineStep s = .next t) : WritesBelowCursor s t := by
  cases hphase : s.phase with
  | idle => rw [engineStep, hphase] at h; cases h; exact .refl _
  | validate => rw [engineStep, hphase] at h; exact validateStep_writesBelowCursor h
  | header => rw [engineStep, hphase] at h; exact execHeader_writesBelowCursor h
  | token =>
    have hflag : 0 < s.count → s.flagPos < s.cursor := hinv.flagPosBound (by simp [hphase])
    rw [engineStep, hphase] at h
    exact tokenStep_writesBelowCursor hflag h
  | pad => rw [engineStep, hphase] at h; exact execPad_writesBelowCursor h

end

/-- Settles O53: every phase's step writes only below the cursor it leaves, and valid arguments keep the input
apart from the output region. -/
theorem engineWritesOnlyOutput : Obligations.EngineWritesOnlyOutput := by
  intro s t hinv hstep
  have h := engineStep_writesBelowCursor hinv hstep
  exact ⟨h.onlyOutputWritten, fun _ hj => h.outByte_eq hj, fun hpast _ hi => h.inByte_eq (hinv.argsValid hpast) hi⟩

end Sys2Proof.Proofs

/-! ### The two bytes of a match token (R74, R77) -/

namespace Sys2Proof.Proofs

open Sys2Proof Sys2Proof.Machine

theorem wf_backRef_iff (l d : Nat) :
    (Token.backRef l d).wf = true ↔ (3 ≤ l ∧ l ≤ 18) ∧ 1 ≤ d ∧ d ≤ 4096 := by
  simp only [Token.wf, Bool.and_eq_true, decide_eq_true_iff, and_assoc]
  rfl

/-- L and D[11:8] occupy disjoint bits, so the `|||` of R74 is a sum; the masks drop nothing of a field in range. -/
theorem matchByte1_toNat {l d : Nat} (hl : l ≤ 18) (hd : d ≤ 4096) :
    (matchByte1 l d).toNat = (l - 3) * 16 + (d - 1) / 256 := by
  have hmask (x : Nat) : x &&& 0xF = x % 16 := Nat.and_two_pow_sub_one_eq_mod x 4
  have hlow : (d - 1) / 2 ^ 8 % 16 < 2 ^ 4 := Nat.mod_lt _ (by decide)
  rw [matchByte1, encodedDistance, Config.minMatch, hmask, hmask, Nat.shiftRight_eq_div_pow,
    ← Nat.shiftLeft_add_eq_or_of_lt hlow, Nat.shiftLeft_eq, BitVec.toNat_ofNat]
  omega

theorem matchByte2_toNat (d : Nat) : (matchByte2 d).toNat = (d - 1) % 256 := by
  rw [matchByte2, encodedDistance, show (0xFF : Nat) = 2 ^ 8 - 1 from rfl, Nat.and_two_pow_sub_one_eq_mod,
    BitVec.toNat_ofNat, Nat.mod_mod]

/-- Settles O6: the four fields from the values of the two bytes. -/
theorem matchTokenFields : Obligations.MatchTokenFields := by
  intro l d _ hl _ hd
  rw [Config.maxMatch] at hl
  rw [Config.maxDistance] at hd
  rw [matchByte1_toNat hl hd, matchByte2_toNat]
  omega

theorem matchLengthOf_matchByte1 {l d : Nat} (h : (Token.backRef l d).wf = true) :
    matchLengthOf (matchByte1 l d) = l := by
  obtain ⟨⟨hl3, hl⟩, -, hd⟩ := (wf_backRef_iff l d).1 h
  rw [matchLengthOf, matchByte1_toNat hl hd, Config.minMatch]
  omega

theorem matchDistanceOf_matchBytes {l d : Nat} (h : (Token.backRef l d).wf = true) :
    matchDistanceOf (matchByte1 l d) (matchByte2 d) = d := by
  obtain ⟨⟨-, hl⟩, hd1, hd⟩ := (wf_backRef_iff l d).1 h
  rw [matchDistanceOf, matchByte1_toNat hl hd, matchByte2_toNat]
  omega

end Sys2Proof.Proofs

/-! ### The flag byte of a group (R73) -/

namespace Sys2Proof.Proofs

open Sys2Proof Sys2Proof.Machine

/-- What one token contributes to the flag byte: at most its own bit. -/
theorem tokenBit_getLsbD (isMatch : Bool) {t u : Nat} (ht : t < 8) (hu : u < 8) :
    (if isMatch then (1 : Byte) <<< (7 - t) else 0).getLsbD (7 - u) = (isMatch && decide (u = t)) := by
  cases isMatch with
  | false => simp
  | true =>
    rw [if_pos rfl, Bool.true_and, BitVec.getLsbD_shiftLeft, BitVec.ofNat_eq_ofNat, BitVec.getLsbD_one, Bool.eq_iff_iff]
    simp only [Bool.and_eq_true, Bool.not_eq_true', decide_eq_true_iff, decide_eq_false_iff_not]
    omega

/-- The bits of the flag byte that starts at token `t`: a token at place `u` sets bit (7 - u) when it is a match, and a
place that holds no token leaves its bit 0. -/
theorem flagByteFrom_getLsbD (ts : List Token) {t u : Nat} (hlen : t + ts.length ≤ 8) (hu : u < 8) :
    (flagByteFrom t ts).getLsbD (7 - u) = (decide (t ≤ u) && (ts[u - t]?).any Token.isMatch) := by
  induction ts generalizing t with
  | nil => simp [flagByteFrom]
  | cons tok ts ih =>
    rw [List.length_cons] at hlen
    rw [flagByteFrom, BitVec.getLsbD_or, tokenBit_getLsbD _ (by omega) hu, ih (by omega)]
    rcases lt_trichotomy u t with hlt | rfl | hgt
    · simp [hlt.ne, hlt.not_ge, show ¬ t + 1 ≤ u by omega]
    · simp
    · have hsub : u - t = u - (t + 1) + 1 := by omega
      simp [hgt.ne', hgt.le, Nat.succ_le_of_lt hgt, hsub]

/-- Settles O7: both clauses are cases of the bit at a place of the group. -/
theorem flagByteClassifies : Obligations.FlagByteClassifies := by
  intro ts hlen
  have hbit {t : Nat} (ht : t < 8) : (flagByteFrom 0 ts).getLsbD (7 - t) = (ts[t]?).any Token.isMatch := by
    simpa using flagByteFrom_getLsbD ts (t := 0) (by omega) ht
  refine ⟨fun t tok htok => ?_, fun t hts ht => ?_⟩
  · obtain ⟨hlt, -⟩ := List.getElem?_eq_some_iff.1 htok
    rw [hbit (by omega), htok, Option.any_some]
  · rw [hbit ht, List.getElem?_eq_none hts, Option.any_none]

/-- The bits below the last token's are 0, as the number that the reader tests (R73). -/
theorem flagByteFrom_unused {ts : List Token} (hlen : ts.length ≤ 8) :
    (flagByteFrom 0 ts).toNat % 2 ^ (8 - ts.length) = 0 := by
  apply Nat.zero_of_testBit_eq_false
  intro i
  rw [Nat.testBit_mod_two_pow, Bool.and_eq_false_imp, decide_eq_true_iff]
  intro hi
  have hunused := (flagByteClassifies ts hlen).2 (7 - i) (by omega) (by omega)
  rwa [show 7 - (7 - i) = i by omega] at hunused

end Sys2Proof.Proofs

/-! ### Reading a stream back (R70, R72, R78) -/

namespace Sys2Proof.Proofs

open Sys2Proof Sys2Proof.Machine

/-- Every token of the format covers input, so the reader never stands still (R123). -/
theorem span_pos_of_wf {tok : Token} (h : tok.wf = true) : 0 < tok.span := by
  cases tok with
  | literal b => exact Nat.one_pos
  | backRef l d =>
    obtain ⟨⟨hl, -⟩, -⟩ := (wf_backRef_iff l d).1 h
    exact Nat.lt_of_lt_of_le (by decide) hl

/-- One token is read by its flag bit, and the reader goes on behind its bytes (R78). -/
theorem readTokens_token {flag : Byte} {n k t covered c : Nat} {tok : Token} {ts : List Token} {rest r : List Byte}
    (hwf : tok.wf = true) (hcov : covered ≠ n) (hbit : flag.getLsbD (7 - t) = tok.isMatch)
    (hrest : readTokens flag n k (t + 1) (covered + tok.span) rest = .ok (ts, c, r)) :
    readTokens flag n (k + 1) t covered (tok.bytes ++ rest) = .ok (tok :: ts, c, r) := by
  cases tok with
  | literal b =>
    rw [Token.isMatch] at hbit
    rw [Token.span] at hrest
    simp [readTokens, hcov, hbit, Token.bytes, hrest]
  | backRef l d =>
    rw [Token.isMatch] at hbit
    simp [readTokens, hcov, hbit, Token.bytes, matchLengthOf_matchByte1 hwf, matchDistanceOf_matchBytes hwf, hrest]

/-- The reader's way through a group, `read` being the tokens it has behind it: it stops where the group is full or the
input is covered. -/
theorem readTokens_group {n k : Nat} (read ts : List Token) {covered : Nat} (rest : List Byte)
    (hk : read.length + k = 8) (hlen : ts.length ≤ k) (hwf : ∀ tok ∈ ts, tok.wf = true)
    (hcov : covered + (ts.map Token.span).sum ≤ n)
    (hstop : ts.length < k → covered + (ts.map Token.span).sum = n) :
    readTokens (flagByteFrom 0 (read ++ ts)) n k read.length covered (ts.flatMap Token.bytes ++ rest) =
      .ok (ts, covered + (ts.map Token.span).sum, rest) := by
  induction ts generalizing read k covered with
  | nil =>
    cases k with
    | zero => rfl
    | succ k =>
      have hcovered : covered = n := by simpa using hstop
      have hunused := flagByteFrom_unused (ts := read) (by omega)
      simp [readTokens, hcovered, hunused]
  | cons tok ts ih =>
    simp only [List.length_cons, List.map_cons, List.sum_cons, ← Nat.add_assoc] at hlen hcov hstop
    obtain ⟨hwf0, hwfs⟩ := List.forall_mem_cons.1 hwf
    obtain ⟨k, rfl⟩ := Nat.exists_eq_add_one.2 (show 0 < k by omega)
    have hspan := span_pos_of_wf hwf0
    have hbit : (flagByteFrom 0 (read ++ tok :: ts)).getLsbD (7 - read.length) = tok.isMatch :=
      (flagByteClassifies (read ++ tok :: ts) (by rw [List.length_append, List.length_cons]; omega)).1 _ _ (by simp)
    have hrest := ih (read ++ [tok]) (k := k) (covered := covered + tok.span)
      (by rw [List.length_append, List.length_singleton]; omega) (by omega) hwfs hcov (fun h => hstop (by omega))
    rw [List.append_assoc, List.singleton_append, List.length_append, List.length_singleton] at hrest
    simpa [Nat.add_assoc] using readTokens_token hwf0 (by omega) hbit hrest

/-- A group is read from its flag byte, and the groups behind it after it (R72). -/
theorem readGroups_group {f : Byte} {n k covered c : Nat} {ts us : List Token} {bs r r' : List Byte}
    (hcov : covered < n) (hgroup : readTokens f n 8 0 covered bs = .ok (ts, c, r))
    (hrest : readGroups n k c r = .ok (us, r')) :
    readGroups n (k + 1) covered (f :: bs) = .ok (ts ++ us, r') := by
  simp [readGroups, hcov.ne, hcov.not_gt, Config.groupSize, hgroup, hrest]

/-- The reader stops where the input is covered, and leaves the bytes behind the last group. -/
theorem readGroups_covered {n m : Nat} (hm : 0 < m) (bs : List Byte) : readGroups n m n bs = .ok ([], bs) := by
  cases m with
  | zero => exact absurd hm (lt_irrefl 0)
  | succ m => simp [readGroups]

/-- The first group of a non-empty list, and the groups behind it (R70, R72). -/
theorem groupsBytes_of_ne_nil {ts : List Token} (h : ts ≠ []) (k : Nat) :
    groupsBytes (k + 1) ts =
      flagByteFrom 0 (ts.take 8) :: ((ts.take 8).flatMap Token.bytes ++ groupsBytes k (ts.drop 8)) := by
  cases ts with
  | nil => exact absurd rfl h
  | cons tok ts => rfl

/-- The groups of tokens that cover the input are read back. Each group has a byte, so `m`, a bound on the bytes, bounds
the groups as the reader needs it. -/
theorem readGroups_groupsBytes {n k m covered : Nat} {ts : List Token} (rest : List Byte) (hk : ts.length ≤ k)
    (hm : (groupsBytes k ts).length < m) (hwf : ∀ tok ∈ ts, tok.wf = true)
    (hcov : covered + (ts.map Token.span).sum = n) :
    readGroups n m covered (groupsBytes k ts ++ rest) = .ok (ts, rest) := by
  induction k generalizing ts covered m with
  | zero =>
    obtain rfl : ts = [] := List.eq_nil_of_length_eq_zero (Nat.le_zero.1 hk)
    obtain rfl : covered = n := hcov
    exact readGroups_covered (Nat.zero_lt_of_lt hm) rest
  | succ k ih =>
    rcases eq_or_ne ts [] with rfl | hne
    · obtain rfl : covered = n := hcov
      exact readGroups_covered (Nat.zero_lt_of_lt hm) rest
    · have hsum : ((ts.take 8).map Token.span).sum + ((ts.drop 8).map Token.span).sum = (ts.map Token.span).sum := by
        rw [← List.sum_append, ← List.map_append, List.take_append_drop]
      have hlast (h : (ts.take 8).length < 8) : ts.drop 8 = [] :=
        List.drop_eq_nil_of_le (by rw [List.length_take] at h; omega)
      have hlt : covered < n := by
        have htok := ts.head_mem hne
        have hspan := span_pos_of_wf (hwf _ htok)
        have hle := List.le_sum_of_mem (List.mem_map_of_mem (f := Token.span) htok)
        omega
      rw [groupsBytes_of_ne_nil hne, List.length_cons, List.length_append] at hm
      obtain ⟨m, rfl⟩ := Nat.exists_eq_add_one.2 (show 0 < m by omega)
      have hgroup := readTokens_group [] (ts.take 8) (n := n) (k := 8) (covered := covered)
        (groupsBytes k (ts.drop 8) ++ rest) rfl (List.length_take_le 8 ts)
        (fun v hv => hwf v (List.mem_of_mem_take hv)) (by omega)
        (fun h => by rw [hlast h, List.map_nil, List.sum_nil] at hsum; omega)
      have hrest := ih (m := m) (covered := covered + ((ts.take 8).map Token.span).sum) (ts := ts.drop 8)
        (by rw [List.length_drop]; omega) (by omega) (fun v hv => hwf v (List.mem_of_mem_drop hv)) (by omega)
      rw [groupsBytes_of_ne_nil hne, List.cons_append, List.append_assoc]
      simpa using readGroups_group hlt hgroup hrest

theorem decodeElement_headerBytes {n : Nat} (h : n ≤ Config.maxInputLength) (rest : List Byte) :
    decodeElement .header (headerBytes n ++ rest) = .ok (.header n, rest) := by
  have hword := leNat_headerBytes h
  rw [headerBytes_eq] at hword ⊢
  rw [leNat] at hword
  have hlen : leNat [BitVec.ofNat 8 n, BitVec.ofNat 8 (n / 256), BitVec.ofNat 8 (n / 65536)] = n := by
    simp only [BitVec.reduceToNat] at hword
    omega
  simp [decodeElement, Config.formatTag, hlen]

/-- When the reader accepts a stream: header, groups, and zero bytes up to the multiple of 4 (R70, R76). -/
theorem readStream_eq_ok {n : Nat} {ts : List Token} {bs rest pads : List Byte}
    (hheader : decodeElement .header bs = .ok (.header n, rest))
    (hgroups : readGroups n (rest.length + 1) 0 rest = .ok (ts, pads))
    (hlen : pads.length = padCount (bs.length - pads.length)) (hzero : ∀ b ∈ pads, b = 0) :
    readStream bs = .ok (n, ts) := by
  have hall : pads.all (· = 0) = true := by simpa using hzero
  simp only [readStream, hheader, hgroups, if_pos hlen, hall, if_true]

theorem streamOf_eq (n : Nat) (ts : List Token) :
    streamOf n ts =
      headerBytes n ++ (groupsBytes ts.length ts ++ List.replicate (padCount (streamBody n ts).length) 0) :=
  List.append_assoc _ _ _

/-- Settles O8: the header gives N, the groups give the tokens, and what is left is the padding. -/
theorem streamReadsBack : Obligations.StreamReadsBack := by
  intro n ts hn hwf hsum
  apply readStream_eq_ok (rest := groupsBytes ts.length ts ++ List.replicate (padCount (streamBody n ts).length) 0)
  case hheader => rw [streamOf_eq, decodeElement_headerBytes hn]
  case hgroups =>
    exact readGroups_groupsBytes _ le_rfl (by rw [List.length_append]; omega) hwf (by rw [hsum, Nat.zero_add])
  case hlen => rw [streamOf, List.length_append, Nat.add_sub_cancel, List.length_replicate]
  case hzero => exact fun b hb => List.eq_of_mem_replicate hb

end Sys2Proof.Proofs

/-! ### The scan of the match finder (R102 to R107) -/

namespace Sys2Proof.Proofs

open Sys2Proof Sys2Proof.Machine Sys2Proof.Stated

theorem runsEqual_iff_candidate {inp : Nat → Byte} {off len d : Nat} :
    runsEqual inp (off - d) off len = true ↔ candidate inp off len d :=
  runsEqual_iff inp (off - d) off len

/-- `r` is the nearest distance, from `d` up and within the limits of R103 and R104, whose candidate matches. -/
def NearestFrom (inp : Nat → Byte) (off len d r : Nat) : Prop :=
  d ≤ r ∧ r ≤ Config.maxDistance ∧ r ≤ off ∧ candidate inp off len r ∧
    ∀ e : Nat, d ≤ e → e < r → ¬ candidate inp off len e

section

variable {inp : Nat → Byte} {off len d r : Nat}

theorem NearestFrom.within_limits (h : NearestFrom inp off len d r) : d ≤ Config.maxDistance ∧ d ≤ off := by
  obtain ⟨hdr, hmax, hoff, -, -⟩ := h
  exact ⟨hdr.trans hmax, hdr.trans hoff⟩

theorem nearestFrom_of_candidate (hmax : d ≤ Config.maxDistance) (hoff : d ≤ off) (hc : candidate inp off len d) :
    NearestFrom inp off len d r ↔ d = r := by
  constructor
  · rintro ⟨hdr, -, -, -, hfirst⟩
    exact hdr.eq_of_not_lt fun hlt => hfirst d le_rfl hlt hc
  · rintro rfl
    exact ⟨le_rfl, hmax, hoff, hc, fun e hde hed => absurd hed hde.not_gt⟩

theorem nearestFrom_of_not_candidate (hc : ¬ candidate inp off len d) :
    NearestFrom inp off len d r ↔ NearestFrom inp off len (d + 1) r := by
  constructor
  · rintro ⟨hdr, hmax, hoff, hr, hfirst⟩
    have hne : d ≠ r := fun h => hc (h ▸ hr)
    exact ⟨hdr.lt_of_ne hne, hmax, hoff, hr, fun e he => hfirst e (Nat.le_of_succ_le he)⟩
  · rintro ⟨hdr, hmax, hoff, hr, hfirst⟩
    refine ⟨Nat.le_of_succ_le hdr, hmax, hoff, hr, fun e hde her => ?_⟩
    rcases hde.eq_or_lt with rfl | hlt
    · exact hc
    · exact hfirst e hlt her

/-- A scan with steps left for every distance of the window gives the nearest match (R106). -/
theorem scanFrom_eq_iff {k : Nat} (hk : Config.maxDistance < d + k) (hr : 0 < r) :
    scanFrom inp off len k d = r ↔ NearestFrom inp off len d r := by
  induction k generalizing d with
  | zero =>
    rw [scanFrom_past_window inp off len 0 d hk]
    exact iff_of_false hr.ne fun h => h.within_limits.1.not_gt hk
  | succ k ih =>
    rcases lt_or_ge Config.maxDistance d with hpast | hmax
    · rw [scanFrom_past_window inp off len (k + 1) d hpast]
      exact iff_of_false hr.ne fun h => h.within_limits.1.not_gt hpast
    rcases lt_or_ge off d with hpast | hoff
    · rw [scanFrom_past_start inp off len (k + 1) d hpast]
      exact iff_of_false hr.ne fun h => h.within_limits.2.not_gt hpast
    rw [scanFrom_succ inp off len k d hmax hoff]
    by_cases hc : candidate inp off len d
    · rw [if_pos (runsEqual_iff_candidate.2 hc), nearestFrom_of_candidate hmax hoff hc]
    · rw [if_neg (mt runsEqual_iff_candidate.1 hc), nearestFrom_of_not_candidate hc]
      exact ih (by omega)

end

/-- Settles O10: the room check, and with room the scan from distance 8, which has a step for every distance. -/
theorem findGivesNearestMatch : Obligations.FindGivesNearestMatch := by
  intro inp n off len
  refine ⟨find_no_room inp n off len, fun d hroom hd => ?_⟩
  have hsteps : Config.maxDistance < Config.minSearchDistance + (Config.maxDistance + 1) := by decide
  rw [find_room inp n off len hroom]
  exact scanFrom_eq_iff hsteps hd

end Sys2Proof.Proofs

/-! ### The probes of the token selector (R121 to R123) -/

namespace Sys2Proof.Proofs

open Sys2Proof Sys2Proof.Machine

/-- The probes stop at `length`: every length up to it is found, and it is the last one or the next fails (R121). -/
structure LastSuccess (inp : Nat → Byte) (n off length : Nat) : Prop where
  minMatch_le : Config.minMatch ≤ length
  le_maxMatch : length ≤ Config.maxMatch
  found : ∀ l : Nat, Config.minMatch ≤ l → l ≤ length → 0 < find inp n off l
  stops : length = Config.maxMatch ∨ find inp n off (length + 1) = 0

section

variable {inp : Nat → Byte} {n off length length' distance : Nat}

/-- A match never extends past the input, by the room check (R101). -/
theorem add_le_of_find_pos (h : 0 < find inp n off length) : off + length ≤ n :=
  not_lt.1 fun hroom => h.ne' (find_no_room inp n off length hroom)

namespace LastSuccess

theorem pos (h : LastSuccess inp n off length) : 0 < length :=
  Nat.lt_of_lt_of_le (by decide) h.minMatch_le

theorem find_minMatch_pos (h : LastSuccess inp n off length) : 0 < find inp n off Config.minMatch :=
  h.found _ le_rfl h.minMatch_le

theorem find_pos (h : LastSuccess inp n off length) : 0 < find inp n off length :=
  h.found _ h.minMatch_le le_rfl

/-- Where one probe sequence stops, no other has a success beyond. -/
theorem le (h : LastSuccess inp n off length) (h' : LastSuccess inp n off length') : length' ≤ length := by
  rcases h.stops with rfl | hfail
  · exact h'.le_maxMatch
  · exact not_lt.1 fun hlt => (h'.found (length + 1) (Nat.le_succ_of_le h.minMatch_le) hlt).ne' hfail

theorem unique (h : LastSuccess inp n off length) (h' : LastSuccess inp n off length') : length = length' :=
  (h'.le h).antisymm (h.le h')

end LastSuccess

/-- After a success at `length` the probes go on to the last success, and keep its pair (R121). -/
theorem probeLengths_lastSuccess {k : Nat} (hk : length + k = Config.maxMatch) (hmin : Config.minMatch ≤ length)
    (hfound : ∀ l : Nat, Config.minMatch ≤ l → l ≤ length → 0 < find inp n off l) :
    ∃ last, LastSuccess inp n off last ∧
      probeLengths inp n off k (length + 1) (length, find inp n off length) = (last, find inp n off last) := by
  induction k generalizing length with
  | zero => exact ⟨length, ⟨hmin, hk.le, hfound, .inl hk⟩, rfl⟩
  | succ k ih =>
    rw [probeLengths_succ]
    by_cases hfail : find inp n off (length + 1) = 0
    · rw [if_pos hfail]
      exact ⟨length, ⟨hmin, by omega, hfound, .inr hfail⟩, rfl⟩
    · rw [if_neg hfail]
      refine ih (by omega) (Nat.le_succ_of_le hmin) fun l hl hle => ?_
      rcases Nat.le_succ_iff.1 hle with hle | rfl
      · exact hfound l hl hle
      · exact Nat.pos_of_ne_zero hfail

/-- A failure at length 3 selects the literal (R122). -/
theorem select_of_find_eq_zero (h : find inp n off Config.minMatch = 0) :
    select inp n off = (.literal (inp off), off + 1) := by
  have hnone : probeLengths inp n off (Config.maxMatch + 1 - Config.minMatch) Config.minMatch (0, 0) = (0, 0) :=
    (probeLengths_succ inp n off 15 Config.minMatch (0, 0)).trans (if_pos h)
  simp [select, hnone]

/-- A success at length 3 selects the match of the last success (R122). -/
theorem select_of_find_pos (h : 0 < find inp n off Config.minMatch) :
    ∃ last, LastSuccess inp n off last ∧
      select inp n off = (.backRef last (find inp n off last), off + last) := by
  obtain ⟨last, hlast, hprobe⟩ := probeLengths_lastSuccess (length := Config.minMatch) (k := 15) rfl le_rfl
    fun l hl hle => hle.antisymm hl ▸ h
  have hbest : probeLengths inp n off (Config.maxMatch + 1 - Config.minMatch) Config.minMatch (0, 0) =
      (last, find inp n off last) :=
    (probeLengths_succ inp n off 15 Config.minMatch (0, 0)).trans ((if_neg h.ne').trans hprobe)
  exact ⟨last, hlast, by simp [select, hbest, hlast.pos.ne']⟩

/-- What select can answer: the literal when length 3 fails, else the match of the last success (R122, R123). -/
theorem select_cases (inp : Nat → Byte) (n off : Nat) :
    (find inp n off Config.minMatch = 0 ∧ select inp n off = (.literal (inp off), off + 1)) ∨
      ∃ last, LastSuccess inp n off last ∧
        select inp n off = (.backRef last (find inp n off last), off + last) :=
  (Nat.eq_zero_or_pos _).imp (fun h => ⟨h, select_of_find_eq_zero h⟩) select_of_find_pos

theorem select_eq_literal_iff :
    (select inp n off).1 = .literal (inp off) ↔ find inp n off Config.minMatch = 0 := by
  rcases select_cases inp n off with ⟨hfail, hsel⟩ | ⟨last, hlast, hsel⟩
  · simp [hsel, hfail]
  · simp [hsel, hlast.find_minMatch_pos.ne']

theorem select_eq_backRef_iff :
    (select inp n off).1 = .backRef length distance ↔
      LastSuccess inp n off length ∧ distance = find inp n off length := by
  rcases select_cases inp n off with ⟨hfail, hsel⟩ | ⟨last, hlast, hsel⟩
  · have hnone : ¬ LastSuccess inp n off length := fun h => h.find_minMatch_pos.ne' hfail
    simp [hsel, hnone]
  · rw [hsel, Token.backRef.injEq]
    constructor
    · rintro ⟨rfl, rfl⟩
      exact ⟨hlast, rfl⟩
    · rintro ⟨h, rfl⟩
      obtain rfl := hlast.unique h
      exact ⟨rfl, rfl⟩

end

/-- Settles O14: the two answers of select, the match's by where its probes stop. -/
theorem selectKeepsLastSuccess : Obligations.SelectKeepsLastSuccess := by
  intro inp n off
  refine ⟨select_eq_literal_iff, fun length distance => select_eq_backRef_iff.trans ?_⟩
  constructor
  · rintro ⟨⟨hmin, hmax, hfound, hstops⟩, hdist⟩
    exact ⟨hmin, hmax, hfound, hdist, hstops⟩
  · rintro ⟨hmin, hmax, hfound, hdist, hstops⟩
    exact ⟨⟨hmin, hmax, hfound, hstops⟩, hdist⟩

/-- Settles O13: the cursor of each answer of select; a found length has room in the input. -/
theorem selectAdvances : Obligations.SelectAdvances := by
  intro inp n off hoff
  rcases select_cases inp n off with ⟨-, hsel⟩ | ⟨last, hlast, hsel⟩
  · simp [hsel, Nat.succ_le_of_lt hoff]
  · have hroom := add_le_of_find_pos hlast.find_pos
    rw [hsel]
    refine ⟨fun b h => Token.noConfusion h, fun length distance h => ?_, Nat.lt_add_of_pos_right hlast.pos, hroom⟩
    obtain ⟨rfl, -⟩ := Token.backRef.inj h
    exact ⟨rfl, hroom⟩

end Sys2Proof.Proofs

/-! ### The append of the bounded writer (R160, R161) -/

namespace Sys2Proof.Proofs

open Sys2Proof Sys2Proof.Machine

theorem outAt_add (s : State) (j k : Nat) : s.outAt (j + k) = s.outAt j + k := (Nat.add_assoc _ _ _).symm

/-- Settles O17: what does not fit raises before any write; bytes that fit are stored by one `writeBytes` at the cursor. -/
theorem appendAllOrNothing : Obligations.AppendAllOrNothing := by
  intro bs s _
  refine ⟨fun hover => State.append_eq_raise.2 ⟨hover, rfl, rfl⟩, fun hroom hfits => ?_⟩
  have happ := State.append_fits hroom hfits
  obtain ⟨-, hspace, -⟩ := State.append_eq_ok.1 happ
  rw [outAt_add] at hspace ⊢
  refine ⟨_, happ, rfl, fun hwf i hi => ?_, fun a ha => Memory.read_writeBytes_outside ha _⟩
  rw [outAt_add]
  exact Memory.read_writeBytes_inside hwf hspace hi

end Sys2Proof.Proofs

/-! ### What the end of a job leaves in STATUS and RESULT (R177, R195, R220) -/

namespace Sys2Proof.Proofs

open Sys2Proof Sys2Proof.Machine Sys2Proof.Stated

theorem terminate_invalidArgument (s : State) : s.terminate .invalidArgument = invalid s := rfl

theorem terminate_outputExhausted (s : State) : s.terminate .outputExhausted = exhausted s := rfl

/-- Once a job has ended, STATUS holds DONE and the error code alone. -/
theorem statusWord_of_done {s : State} (hbusy : s.busy = false) (hdone : s.done = true) :
    s.statusWord = BitVec.zeroExtend 32 (s.err ++ 0b10#2) := by
  rw [State.statusWord, hbusy, hdone, BitVec.append_assoc]
  rfl

/-- Settles O32: each way of ending sets DONE and clears BUSY, so the error code decides the STATUS word. -/
theorem endOfJobCodes : Obligations.EndOfJobCodes := by
  intro s
  refine ⟨⟨?_, rfl⟩, ⟨?_, rfl⟩, ?_, rfl⟩
  · rw [statusWord_of_done rfl rfl, State.terminate_err]; decide
  · rw [statusWord_of_done rfl rfl, State.terminate_err]; decide
  · rw [statusWord_of_done rfl rfl, State.complete_err]; decide

end Sys2Proof.Proofs

/-! ### The header and padding steps (R173, R176) -/

namespace Sys2Proof.Proofs

open Sys2Proof Sys2Proof.Machine Sys2Proof.Stated

theorem exec_header (n : Nat) (s : State) : exec (.header n) s = execHeader n s := rfl

theorem exec_pad (s : State) : exec .pad s = execPad s := rfl

/-- Bytes that do not fit raise OutputExhausted with nothing written (R161). -/
theorem append_exhausted {bs : List Byte} {s : State} (h : s.cap < s.cursor + bs.length) :
    s.append bs = .raise .outputExhausted s := State.append_eq_raise.2 ⟨h, rfl, rfl⟩

/-- Settles O18: the header is one append of four bytes, which the capacity decides. -/
theorem headerStep : Obligations.HeaderStep := by
  intro n s _
  refine ⟨fun hroom hfits => ?_, fun hover => ?_⟩
  · have happ := State.append_fits (bs := headerBytes n) hroom hfits
    rw [exec_header, execHeader, happ, headerBytes_eq]
    rfl
  · have happ : s.append (headerBytes n) = .raise .outputExhausted s := append_exhausted hover
    rw [exec_header, execHeader, happ, Effect.andThen_raise, Effect.outcome_raise, terminate_outputExhausted]

theorem execPad_aligned {s : State} (h : s.cursor % Config.padMultiple = 0) : execPad s = .next s.complete :=
  if_pos h

theorem execPad_unaligned {s : State} (h : s.cursor % Config.padMultiple ≠ 0) :
    execPad s = (s.append [0x00]).outcome := if_neg h

/-- The padding of R76 is short, and it ends at a multiple of PAD_MULTIPLE. -/
theorem padCount_aligns (size : Nat) : padCount size ≤ 3 ∧ (size + padCount size) % Config.padMultiple = 0 := by
  rw [padCount, Config.padMultiple]
  omega

/-- Settles O23: alignment decides between completion and one appended byte, and the capacity whether that byte fits. -/
theorem padStep : Obligations.PadStep := by
  intro s
  rw [exec_pad]
  refine ⟨fun halign => execPad_aligned halign, fun hpad hroom hfits => ?_, fun hpad hover => ?_, padCount_aligns _⟩
  · have happ := State.append_fits (bs := [0x00]) hroom hfits
    rw [execPad_unaligned hpad, happ]
    rfl
  · have happ : s.append [0x00] = .raise .outputExhausted s := append_exhausted hover
    rw [execPad_unaligned hpad, happ, Effect.outcome_raise, terminate_outputExhausted]

end Sys2Proof.Proofs

/-! ### The emission of a token (R123, R147, R150, R174) -/

namespace Sys2Proof.Proofs

open Sys2Proof Sys2Proof.Machine Sys2Proof.Stated

/-- The state after a token's bytes, its flag bit and the count (R142, R143, R144), where the bytes fit. -/
def tokenPut (tok : Token) (s : State) : State :=
  { s with
    mem := s.mem.writeBytes (s.outAt s.cursor) tok.bytes, cursor := s.cursor + tok.bytes.length,
    flagVal := s.markToken tok, count := s.count + 1 }

section
variable {s : State} {tok : Token}

theorem opened_of_count_eq_zero (h : s.count = 0) :
    opened s = { s with
      flagPos := s.cursor, mem := s.mem.write (s.outAt s.cursor) 0x00, cursor := s.cursor + 1, flagVal := 0 } :=
  if_pos h

theorem opened_of_count_ne_zero (h : s.count ≠ 0) : opened s = s := if_neg h

@[simp] theorem opened_outRegion (s : State) : (opened s).outRegion = s.outRegion := by
  unfold opened; split <;> rfl

@[simp] theorem opened_cap (s : State) : (opened s).cap = s.cap := by unfold opened; split <;> rfl

@[simp] theorem opened_outAt (s : State) (j : Nat) : (opened s).outAt j = s.outAt j := by unfold opened; split <;> rfl

@[simp] theorem opened_count (s : State) : (opened s).count = s.count := by unfold opened; split <;> rfl

/-- After group open the flag byte lies below the cursor (R146). -/
theorem opened_flagPos_lt (hflag : 0 < s.count → s.flagPos < s.cursor) : (opened s).flagPos < (opened s).cursor := by
  by_cases hcount : s.count = 0
  · rw [opened_of_count_eq_zero hcount]
    exact Nat.lt_succ_self _
  · rw [opened_of_count_ne_zero hcount]
    exact hflag (Nat.pos_of_ne_zero hcount)

theorem openGroup_fits (hfits : s.outRegion.fits = true) (hroom : s.count = 0 → s.cursor + 1 ≤ s.cap) :
    s.openGroup = .ok (opened s) := by
  rw [State.openGroup_eq_ok]
  by_cases hcount : s.count = 0
  · obtain ⟨hcap, hspace, -⟩ := State.append_eq_ok.1 (State.append_fits (bs := [0x00]) (hroom hcount) hfits)
    exact .inl ⟨hcount, State.reserveFlag_eq_ok.2 ⟨hcap, hspace, opened_of_count_eq_zero hcount⟩⟩
  · exact .inr ⟨hcount, opened_of_count_ne_zero hcount⟩

theorem openGroup_exhausted (hcount : s.count = 0) (hover : s.cap < s.cursor + 1) :
    s.openGroup = .raise .outputExhausted { s with flagPos := s.cursor } :=
  State.openGroup_eq_raise.2 ⟨hcount, State.reserveFlag_eq_raise.2 ⟨hover, rfl, rfl⟩⟩

theorem putToken_fits (hfits : s.outRegion.fits = true) (hroom : s.cursor + tok.bytes.length ≤ s.cap) :
    s.putToken tok = .ok (tokenPut tok s) := by
  obtain ⟨hcap, hspace, -⟩ := State.append_eq_ok.1 (State.append_fits hroom hfits)
  exact State.putToken_eq_ok.2 ⟨hcap, hspace, rfl⟩

theorem putToken_exhausted (hover : s.cap < s.cursor + tok.bytes.length) :
    s.putToken tok = .raise .outputExhausted s := State.putToken_eq_raise.2 ⟨hover, rfl, rfl⟩

/-- Group close never fails while the reserved byte lies in the output region (R146). -/
theorem closeGroup_fits {next : Nat} (hfits : s.outRegion.fits = true) (hflag : s.flagPos < s.cap) :
    s.closeGroup next = .ok (closed next s) := by
  have hspace : s.outAt s.flagPos < Config.spaceSize :=
    (Nat.add_lt_add_left hflag _).trans_le ((State.outRegion_fits s).1 hfits)
  rw [State.closeGroup_eq_ok]
  by_cases hclose : s.count = Config.groupSize ∨ next = s.n
  · exact .inl ⟨hclose, State.writeFlag_eq_ok.2 ⟨hspace, if_pos hclose⟩⟩
  · exact .inr ⟨hclose, if_neg hclose⟩

/-- Where the flag byte and the token's bytes fit, emission is group open, the token, group close and the move of the
input cursor. -/
theorem emitToken_fits (hfits : s.outRegion.fits = true) (hflag : 0 < s.count → s.flagPos < s.cursor)
    (hroom : (opened s).cursor + tok.bytes.length ≤ s.cap) :
    s.emitToken tok =
      .ok { closed (s.off + tok.span) (tokenPut tok (opened s)) with off := s.off + tok.span } := by
  have hopen : s.openGroup = .ok (opened s) := openGroup_fits hfits fun hcount => by
    rw [opened_of_count_eq_zero hcount] at hroom
    exact (Nat.le_add_right _ _).trans hroom
  have hput : (opened s).putToken tok = .ok (tokenPut tok (opened s)) :=
    putToken_fits (by rwa [opened_outRegion]) (by rwa [opened_cap])
  have hpos : (opened s).flagPos < (opened s).cap := by
    have := opened_flagPos_lt hflag
    rw [opened_cap]
    omega
  have hclose : (tokenPut tok (opened s)).closeGroup (s.off + tok.span) =
      .ok (closed (s.off + tok.span) (tokenPut tok (opened s))) :=
    closeGroup_fits ((congrArg Region.fits (opened_outRegion s)).trans hfits) hpos
  exact State.emitToken_eq_ok.2 ⟨_, State.emit_eq_ok.2 ⟨_, _, hopen, hput, hclose⟩, rfl⟩

/-- Where the flag byte does not fit, emission stops with nothing written. -/
theorem emitToken_noFlagByte (hcount : s.count = 0) (hover : s.cap < s.cursor + 1) :
    s.emitToken tok = .raise .outputExhausted { s with flagPos := s.cursor } :=
  State.emitToken_eq_raise.2 (State.emit_eq_raise.2 (.inl (openGroup_exhausted hcount hover)))

/-- Where the flag byte fits and the token's bytes do not, emission stops with the flag byte reserved (R150). -/
theorem emitToken_noBytes (hfits : s.outRegion.fits = true) (hroom : s.count = 0 → s.cursor + 1 ≤ s.cap)
    (hover : s.cap < (opened s).cursor + tok.bytes.length) :
    s.emitToken tok = .raise .outputExhausted (opened s) :=
  State.emitToken_eq_raise.2 (State.emit_eq_raise.2
    (.inr ⟨_, openGroup_fits hfits hroom, putToken_exhausted (by rwa [opened_cap])⟩))

/-- A token's step, by whether the flag byte and the token's bytes fit. -/
theorem exec_toInstr_emits (hfits : s.outRegion.fits = true) (hflag : 0 < s.count → s.flagPos < s.cursor) :
    ((opened s).cursor + tok.bytes.length ≤ s.cap →
      exec tok.toInstr s =
        .next { closed (s.off + tok.span) (tokenPut tok (opened s)) with off := s.off + tok.span }) ∧
      (s.count = 0 → s.cap < s.cursor + 1 → exec tok.toInstr s = .next (exhausted { s with flagPos := s.cursor })) ∧
      ((s.count = 0 → s.cursor + 1 ≤ s.cap) → s.cap < (opened s).cursor + tok.bytes.length →
        exec tok.toInstr s = .next (exhausted (opened s))) := by
  rw [exec_toInstr]
  refine ⟨fun hroom => ?_, fun hcount hover => ?_, fun hroom hover => ?_⟩
  · rw [emitToken_fits hfits hflag hroom, Effect.outcome_ok]
  · rw [emitToken_noFlagByte hcount hover, Effect.outcome_raise, terminate_outputExhausted]
  · rw [emitToken_noBytes hfits hroom hover, Effect.outcome_raise, terminate_outputExhausted]

end

/-- A literal in the words of R142. -/
theorem tokenPut_literal (b : Byte) (s : State) :
    tokenPut (.literal b) (opened s) =
      { opened s with
        mem := (opened s).mem.write (s.outAt (opened s).cursor) b, cursor := (opened s).cursor + 1,
        count := s.count + 1 } := by
  rw [← opened_outAt, ← opened_count]
  rfl

/-- Settles O21: the step of a token of one byte and flag bit 0. -/
theorem literalStep : Obligations.LiteralStep := by
  intro b s hfits hflag
  rw [← tokenPut_literal]
  exact exec_toInstr_emits (tok := .literal b) hfits hflag

/-- A match in the words of R143, its two bytes by value (R74). -/
theorem tokenPut_backRef {l d : Nat} (hl : l ≤ 18) (hd : d ≤ 4096) (s : State) :
    tokenPut (.backRef l d) (opened s) =
      { opened s with
        mem := ((opened s).mem.write (s.outAt (opened s).cursor)
            (BitVec.ofNat 8 ((l - 3) * 16 + (d - 1) / 256))).write
          (s.outAt (opened s).cursor + 1) (BitVec.ofNat 8 ((d - 1) % 256)),
        cursor := (opened s).cursor + 2, count := s.count + 1,
        flagVal := (opened s).flagVal ||| ((1 : Byte) <<< (7 - s.count)) } := by
  rw [← matchByte1_toNat hl hd, ← matchByte2_toNat, BitVec.ofNat_toNat, BitVec.ofNat_toNat, BitVec.setWidth_eq,
    BitVec.setWidth_eq, ← opened_outAt, ← opened_count]
  rfl

/-- Settles O22: the step of a token of two bytes and flag bit 1. -/
theorem matchStep : Obligations.MatchStep := by
  intro length distance s _ hlen _ hdist hfits hflag
  rw [← tokenPut_backRef hlen hdist]
  exact exec_toInstr_emits (tok := .backRef length distance) hfits hflag

end Sys2Proof.Proofs

/-! ### The engine's phases (R171, R172) -/

namespace Sys2Proof.Proofs

open Sys2Proof Sys2Proof.Machine Sys2Proof.Stated

section
variable {s t : State}

theorem engineStep_idle (h : s.phase = .idle) : engineStep s = .next s := by rw [engineStep, h]

theorem engineStep_validate (h : s.phase = .validate) : engineStep s = validateStep s := by rw [engineStep, h]

theorem engineStep_header (h : s.phase = .header) : engineStep s = execHeader s.n s := by
  rw [engineStep, h, exec_header]

theorem engineStep_token (h : s.phase = .token) : engineStep s = tokenStep s := by rw [engineStep, h]

theorem engineStep_pad (h : s.phase = .pad) : engineStep s = execPad s := by rw [engineStep, h, exec_pad]

/-! #### VALIDATE -/

theorem validateStep_invalid (h : s.argsInvalid = true) : validateStep s = .next (invalid s) := if_pos h

theorem validateStep_valid (h : s.argsInvalid = false) (hdev : s.regionOnDevice = false) :
    validateStep s = .next { s with phase := .header } := by
  simp [validateStep, h, hdev]

theorem n_ne_zero_iff (s : State) : s.n ≠ 0 ↔ s.inLen ≠ 0 :=
  not_congr (BitVec.toNat_eq (x := s.inLen) (y := 0)).symm

theorem cap_ne_zero_iff (s : State) : s.cap ≠ 0 ↔ s.outCap ≠ 0 :=
  not_congr (BitVec.toNat_eq (x := s.outCap) (y := 0)).symm

/-- The conditions of InvalidArgument in terms of the argument registers (R211, R212, R214, R215). -/
theorem argsInvalid_iff (s : State) :
    s.argsInvalid = true ↔
      (s.inAddr = 0 ∧ s.inLen ≠ 0) ∨ (s.outAddr = 0 ∧ s.outCap ≠ 0) ∨ Config.maxInputLength < s.inLen.toNat ∨
        (s.inLen ≠ 0 ∧ s.outCap ≠ 0 ∧ s.inAddr.toNat < s.outAddr.toNat + s.outCap.toNat ∧
          s.outAddr.toNat < s.inAddr.toNat + s.inLen.toNat) ∨
        2 ^ 32 < s.inAddr.toNat + s.inLen.toNat ∨ 2 ^ 32 < s.outAddr.toNat + s.outCap.toNat := by
  simp only [State.argsInvalid, Bool.or_eq_true, or_assoc, State.nullInput_iff, State.nullOutput_iff,
    State.inputTooLong_iff, State.regionsOverlap_iff, State.regionWraps_iff, n_ne_zero_iff, cap_ne_zero_iff]
  rfl

/-- Settles O38: VALIDATE branches on the conditions of InvalidArgument and on nothing else, off the devices. -/
theorem validateDecides : Obligations.ValidateDecides := by
  intro s hphase hdev
  rw [engineStep_validate hphase, ← argsInvalid_iff, Bool.not_eq_true]
  exact ⟨validateStep_invalid, fun hvalid => validateStep_valid hvalid hdev⟩

theorem validateStep_phase (h : validateStep s = .next t) :
    t.phase = .header ∨ (t.phase = .idle ∧ t.err = 0b01) := by
  unfold validateStep at h
  split at h
  · cases h
    exact .inr ⟨rfl, rfl⟩
  · split at h
    · cases h
    · cases h
      exact .inl rfl

/-! #### The steps that append -/

/-- A step that can raise only OutputExhausted reaches the phase of its success or ends the job with that error (R216). -/
theorem outcome_phase {e : Effect} {p : Phase} (hok : ∀ u, e = .ok u → u.phase = p)
    (hraise : ∀ j u, e = .raise j u → j = .outputExhausted) (h : e.outcome = .next t) :
    t.phase = p ∨ (t.phase = .idle ∧ t.err = 0b10) := by
  rcases Effect.outcome_eq_next.1 h with hgo | ⟨j, u, herr, rfl⟩
  · exact .inl (hok t hgo)
  · obtain rfl := hraise j u herr
    exact .inr ⟨rfl, rfl⟩

theorem append_raise_eq {bs : List Byte} {j : JobError} (h : s.append bs = .raise j t) : j = .outputExhausted :=
  (State.append_eq_raise.1 h).2.1

theorem openGroup_phase (h : s.openGroup = .ok t) : t.phase = s.phase := by
  rcases State.openGroup_eq_ok.1 h with ⟨-, hres⟩ | ⟨-, rfl⟩
  · obtain ⟨-, -, rfl⟩ := State.reserveFlag_eq_ok.1 hres
    rfl
  · rfl

theorem putToken_phase {tok : Token} (h : s.putToken tok = .ok t) : t.phase = s.phase := by
  obtain ⟨-, -, rfl⟩ := State.putToken_eq_ok.1 h
  rfl

theorem closeGroup_phase {next : Nat} (h : s.closeGroup next = .ok t) : t.phase = s.phase := by
  rcases State.closeGroup_eq_ok.1 h with ⟨-, hwrite⟩ | ⟨-, rfl⟩
  · obtain ⟨-, rfl⟩ := State.writeFlag_eq_ok.1 hwrite
    rfl
  · rfl

theorem emitToken_phase {tok : Token} (h : s.emitToken tok = .ok t) : t.phase = s.phase := by
  obtain ⟨w, hemit, rfl⟩ := State.emitToken_eq_ok.1 h
  obtain ⟨u, v, hopen, hput, hclose⟩ := State.emit_eq_ok.1 hemit
  exact (closeGroup_phase hclose).trans ((putToken_phase hput).trans (openGroup_phase hopen))

theorem emitToken_raise_eq {tok : Token} {j : JobError} (h : s.emitToken tok = .raise j t) : j = .outputExhausted := by
  rcases State.emit_eq_raise.1 (State.emitToken_eq_raise.1 h) with hopen | ⟨u, -, hput⟩
  · obtain ⟨-, hres⟩ := State.openGroup_eq_raise.1 hopen
    exact (State.reserveFlag_eq_raise.1 hres).2.1
  · exact (State.putToken_eq_raise.1 hput).2.1

theorem execHeader_phase {n : Nat} (h : execHeader n s = .next t) :
    t.phase = .token ∨ (t.phase = .idle ∧ t.err = 0b10) := by
  refine outcome_phase (fun u hu => ?_) (fun j u hu => ?_) h
  · obtain ⟨v, -, hv⟩ := Effect.andThen_eq_ok.1 hu
    cases hv
    rfl
  · rcases Effect.andThen_eq_raise.1 hu with happ | ⟨v, -, hv⟩
    · exact append_raise_eq happ
    · cases hv

theorem exec_toInstr_phase {tok : Token} (h : exec tok.toInstr s = .next t) :
    t.phase = s.phase ∨ (t.phase = .idle ∧ t.err = 0b10) := by
  rw [exec_toInstr] at h
  exact outcome_phase (fun _ => emitToken_phase) (fun _ _ => emitToken_raise_eq) h

/-- At the end of the input the main loop ends (R174). -/
theorem tokenStep_end (h : s.off = s.n) : tokenStep s = .next { s with phase := .pad } := if_pos h

theorem tokenStep_phase (h : tokenStep s = .next t) :
    t.phase = s.phase ∨ (t.phase = .pad ∧ s.off = s.n) ∨ (t.phase = .idle ∧ t.err = 0b10) := by
  by_cases hend : s.off = s.n
  · rw [tokenStep_end hend] at h
    cases h
    exact .inr (.inl ⟨rfl, hend⟩)
  · rw [tokenStep, if_neg hend] at h
    split at h
    · exact (exec_toInstr_phase h).imp_right .inr
    · cases h

theorem execPad_phase (h : execPad s = .next t) :
    t.phase = s.phase ∨ (t.phase = .idle ∧ (t.err = 0b00 ∨ t.err = 0b10)) := by
  by_cases halign : s.cursor % Config.padMultiple = 0
  · rw [execPad_aligned halign] at h
    cases h
    exact .inr ⟨rfl, .inl rfl⟩
  · rw [execPad_unaligned halign] at h
    have hkeep (u : State) (hu : s.append [0x00] = .ok u) : u.phase = s.phase := by
      obtain ⟨-, -, rfl⟩ := State.append_eq_ok.1 hu
      rfl
    exact (outcome_phase hkeep (fun _ _ => append_raise_eq) h).imp_right (And.imp_right .inr)

end

/-- Settles O39: the phase selects the step, and each step's phases are those of its lemma. -/
theorem enginePhases : Obligations.EnginePhases := by
  refine ⟨fun s t _ hstep => ⟨fun hphase => ?_, fun hphase => ?_, fun hphase => ?_, fun hphase => ?_, fun hphase => ?_⟩,
    fun s hphase hend => ?_⟩
  · rw [engineStep_idle hphase] at hstep
    exact (Host.Outcome.next.inj hstep).symm
  · exact validateStep_phase (engineStep_validate hphase ▸ hstep)
  · exact execHeader_phase (engineStep_header hphase ▸ hstep)
  · exact hphase ▸ tokenStep_phase (engineStep_token hphase ▸ hstep)
  · exact hphase ▸ execPad_phase (engineStep_pad hphase ▸ hstep)
  · rw [engineStep_token hphase, tokenStep_end hend]

end Sys2Proof.Proofs

/-! ### The meanings of the register accesses (R191 to R200) -/

namespace Sys2Proof.Proofs

open Sys2Proof Sys2Proof.Machine

theorem exec_wrCtrlStart (v : Word) (s : State) : exec (.wrCtrlStart v) s = .next (s.writeCtrl v) := rfl

theorem exec_wrCtrlBusy (v : Word) (s : State) : exec (.wrCtrlBusy v) s = .next (s.writeCtrl v) := rfl

theorem exec_wrCtrlNoStart (v : Word) (s : State) : exec (.wrCtrlNoStart v) s = .next (s.writeCtrl v) := rfl

theorem exec_rdCtrl (s : State) : exec .rdCtrl s = .next (s.returnRead 0) := rfl

theorem exec_rdStatus (s : State) : exec .rdStatus s = .next (s.returnRead s.statusWord) := rfl

theorem exec_wrStatus (v : Word) (s : State) : exec (.wrStatus v) s = .next s := rfl

theorem exec_rdResult (s : State) : exec .rdResult s = .next (s.returnRead s.result) := rfl

theorem exec_wrResult (v : Word) (s : State) : exec (.wrResult v) s = .next s := rfl

theorem exec_wrArg (r : ArgReg) (v : Word) (s : State) : exec (.wrArg r v) s = .next (s.writeArg r v) := rfl

theorem exec_rdArg (r : ArgReg) (s : State) : exec (.rdArg r) s = .next (s.returnRead (s.readArg r)) := rfl

theorem exec_reserved_read (s : State) : exec (.reserved .read) s = .next (s.returnRead 0) := rfl

theorem exec_reserved_write (v : Word) (s : State) : exec (.reserved (.write v)) s = .next s := rfl

section
variable {v : Word} {s : State}

theorem writeCtrl_starts (hbit : v.getLsbD 0 = true) (hbusy : s.busy = false) : s.writeCtrl v = s.startJob :=
  if_pos (by rw [hbit, hbusy]; rfl)

theorem writeCtrl_while_busy (hbusy : s.busy = true) : s.writeCtrl v = s :=
  if_neg (by rw [hbusy]; simp)

theorem writeCtrl_without_start_bit (hbit : v.getLsbD 0 = false) : s.writeCtrl v = s :=
  if_neg (by rw [hbit]; simp)

theorem writeArg_while_idle (r : ArgReg) (hbusy : s.busy = false) : s.writeArg r v = s.setArg r v :=
  if_neg (by rw [hbusy]; exact Bool.false_ne_true)

theorem writeArg_while_busy (r : ArgReg) (hbusy : s.busy = true) : s.writeArg r v = s := if_pos hbusy

/-- Each field of the STATUS word lies above the ones appended after it (R195). -/
theorem statusWord_toNat (s : State) : s.statusWord.toNat = s.err.toNat * 4 + s.done.toNat * 2 + s.busy.toNat := by
  have hdone : s.done.toNat < 2 := Bool.toNat_lt s.done
  have hbusy : s.busy.toNat < 2 := Bool.toNat_lt s.busy
  have herr : s.err.toNat < 4 := s.err.isLt
  rw [State.statusWord, BitVec.zeroExtend, BitVec.toNat_setWidth, BitVec.toNat_append, BitVec.toNat_append,
    BitVec.toNat_ofBool, BitVec.toNat_ofBool, ← Nat.shiftLeft_add_eq_or_of_lt hbusy,
    ← Nat.shiftLeft_add_eq_or_of_lt hdone, Nat.shiftLeft_eq, Nat.shiftLeft_eq]
  omega

/-- RESULT is 0 from an accepted START until the job ends (R197). -/
theorem result_while_busy (hinv : Inv s) (hbusy : s.busy = true) : s.result = 0 :=
  hinv.resultBeforeDone (hinv.notBusyAndDone hbusy)

end

/-- Settles O24: an idle block takes the start bit. -/
theorem startAccepted : Obligations.StartAccepted := by
  intro v s hbit hbusy
  rw [exec_wrCtrlStart, writeCtrl_starts hbit hbusy]
  rfl

/-- Settles O25: without both the start bit and an idle block a write of CTRL changes nothing. -/
theorem otherCtrlWritesIgnored : Obligations.OtherCtrlWritesIgnored := by
  intro v s
  refine ⟨fun _ hbusy => ?_, fun hbit => ?_⟩
  · rw [exec_wrCtrlBusy, writeCtrl_while_busy hbusy]
  · rw [exec_wrCtrlNoStart, writeCtrl_without_start_bit hbit]

/-- Settles O26: the meaning of RD CTRL. -/
theorem readCtrl : Obligations.ReadCtrl := exec_rdCtrl

/-- Settles O27: the value returned is the STATUS word, whose number has the three fields at their places. -/
theorem statusAccess : Obligations.StatusAccess :=
  fun s => ⟨⟨s.statusWord, exec_rdStatus s, statusWord_toNat s⟩, fun v => exec_wrStatus v s⟩

/-- Settles O28: while a job runs the invariant makes RESULT 0. -/
theorem resultAccess : Obligations.ResultAccess := by
  refine ⟨exec_rdResult, fun s hinv hbusy => ?_, exec_wrResult⟩
  have hread := exec_rdResult s
  rwa [result_while_busy hinv hbusy] at hread

/-- Settles O29: BUSY decides whether the register is stored. -/
theorem argumentWrite : Obligations.ArgumentWrite := by
  intro v s
  refine ⟨fun hbusy => ?_, fun hbusy r => ?_⟩
  · simp only [exec_wrArg, writeArg_while_idle _ hbusy, State.setArg, and_self]
  · rw [exec_wrArg, writeArg_while_busy r hbusy]

/-- Settles O30: the meaning of RD for each register. -/
theorem argumentRead : Obligations.ArgumentRead :=
  fun s => ⟨exec_rdArg .inAddr s, exec_rdArg .inLen s, exec_rdArg .outAddr s, exec_rdArg .outCap s⟩

/-- Settles O31: the meaning of the two accesses at offset 0x1C. -/
theorem reservedOffset : Obligations.ReservedOffset :=
  fun s => ⟨exec_reserved_read s, fun v => exec_reserved_write v s⟩

end Sys2Proof.Proofs

/-! ### The host's turn on an access or a WAIT_DONE (R82, R202, R203) -/

namespace Sys2Proof.Proofs

open Sys2Proof Sys2Proof.Machine

section
variable {s : State} {rest : List HostOp}

theorem hostAccess_ok {a : Access} {i : Instr} (h : decodeAccess s.busy a = .ok i) : hostAccess a s = exec i s := by
  rw [hostAccess, h]

theorem hostAccess_error {a : Access} {e : DecodeError} (h : decodeAccess s.busy a = .error e) :
    hostAccess a s = .refused (.malformedAccess e) := by
  rw [hostAccess, h]

theorem decodeAccess_malformed {busy : Bool} {a : Access} (h : a.width ≠ 4 ∨ a.offset.toNat % 4 ≠ 0) :
    ∃ e, decodeAccess busy a = .error e := by
  by_cases hwidth : a.width ≠ 4
  · exact ⟨.badWidth, if_pos hwidth⟩
  · have hoffset := h.resolve_left hwidth
    exact ⟨.misalignedOffset, by rw [decodeAccess, if_neg hwidth, if_pos hoffset]⟩

/-- A register access on the host's turn uses up the turn and the operation. -/
theorem step_access {a : Access} (hturn : s.turn = .host) (hops : s.hostOps = .access a :: rest) :
    step s = hostAccess a { s with sched := s.sched.tail, hostOps := rest } := by
  rw [step_host hturn, hostStep, State.useTurn_hostOps, hops]
  rfl

theorem step_waitDone (hturn : s.turn = .host) (hops : s.hostOps = .waitDone :: rest) :
    step s = hostWaitDone rest s.useTurn := by
  rw [step_host hturn, hostStep, State.useTurn_hostOps, hops]

/-- WAIT_DONE repeats its read until DONE reads 1 (R82). -/
theorem step_waitDone_repeats (hturn : s.turn = .host) (hops : s.hostOps = .waitDone :: rest) (hdone : s.done = false) :
    step s = .next { s with rdata := s.statusWord, sched := s.sched.tail } := by
  rw [step_waitDone hturn hops]
  exact if_neg (by rw [State.useTurn_done, hdone]; exact Bool.false_ne_true)

theorem step_waitDone_over (hturn : s.turn = .host) (hops : s.hostOps = .waitDone :: rest) (hdone : s.done = true) :
    step s = .next { s with rdata := s.statusWord, sched := s.sched.tail, hostOps := rest } := by
  rw [step_waitDone hturn hops]
  exact if_pos hdone

end

/-- Settles O37: such an access has no decoding, and the host's step refuses it with the decoder's reason. -/
theorem malformedAccessRefused : Obligations.MalformedAccessRefused := by
  intro s a rest hturn hops hbad
  obtain ⟨e, he⟩ := decodeAccess_malformed (busy := s.busy) hbad
  exact ⟨e, by rw [step_access hturn hops]; exact hostAccess_error he⟩

end Sys2Proof.Proofs

/-! ### The engine ends its job (R15, R172) -/

namespace Sys2Proof.Proofs

open Sys2Proof Sys2Proof.Machine Sys2Proof.Stated

/-- The part of the invariant, with VALIDATE kept off the devices and a job started, that lets every engine step go on. -/
structure EngineReady (s : State) : Prop where
  busy_iff : s.busy = true ↔ s.phase ≠ .idle
  done_iff : s.done = true ↔ s.phase = .idle
  ordinary : s.phase ≠ .idle → s.regionOnDevice = false
  argsValid : s.pastValidate = true → s.argsInvalid = false
  off_le : s.phase = .token → s.off ≤ s.n
  flagPos_lt : s.phase = .token → 0 < s.count → s.flagPos < s.cursor

/-- A bound on the engine steps that a job still needs. -/
def engineLeft (s : State) : Nat :=
  match s.phase with
  | .idle => 0
  | .validate => s.n + 7
  | .header => s.n + 6
  | .token => s.n - s.off + 5
  | .pad => padCount s.cursor + 1

/-- What an engine step of a running job does to the job's progress and to what is the host's and the schedule's. -/
structure EngineAdvances (s t : State) : Prop where
  ready : EngineReady t
  left_lt : engineLeft t < engineLeft s
  hostOps : t.hostOps = s.hostOps
  sched : t.sched = s.sched

/-- `t` is `s` but for memory, the output cursor and the open group. -/
def Repacked (s t : State) : Prop :=
  ∃ (mem : Memory) (cursor flagPos : Nat) (flagVal : Byte) (count : Nat),
    t = { s with mem := mem, cursor := cursor, flagPos := flagPos, flagVal := flagVal, count := count }

section
variable {s t u : State}

theorem Repacked.trans (h : Repacked s t) (h' : Repacked t u) : Repacked s u := by
  obtain ⟨_, _, _, _, _, rfl⟩ := h
  obtain ⟨_, _, _, _, _, rfl⟩ := h'
  exact ⟨_, _, _, _, _, rfl⟩

theorem Repacked.refl (s : State) : Repacked s s := ⟨_, _, _, _, _, rfl⟩

theorem opened_repacked (s : State) : Repacked s (opened s) := by
  unfold opened
  split <;> exact ⟨_, _, _, _, _, rfl⟩

theorem tokenPut_repacked (tok : Token) (s : State) : Repacked s (tokenPut tok s) := ⟨_, _, _, _, _, rfl⟩

theorem closed_repacked (next : Nat) (s : State) : Repacked s (closed next s) := by
  unfold closed
  split <;> exact ⟨_, _, _, _, _, rfl⟩

/-- A group that stays open keeps its flag byte below the cursor (R146). -/
theorem closed_flagPos_lt {next : Nat} (h : s.flagPos < s.cursor) :
    0 < (closed next s).count → (closed next s).flagPos < (closed next s).cursor := by
  unfold closed
  split
  · exact fun hcount => absurd hcount (Nat.lt_irrefl 0)
  · exact fun _ => h

/-! #### Readiness -/

/-- Once a job has ended the engine has nothing left to do. -/
theorem engineReady_of_ended (hphase : s.phase = .idle) (hbusy : s.busy = false) (hdone : s.done = true) :
    EngineReady s := by
  constructor <;> simp [hphase, hbusy, hdone, State.pastValidate]

/-- The invariant makes a started job ready. -/
theorem engineReady_of_inv (hinv : Inv s) (hjob : s.busy = true ∨ s.done = true)
    (hdev : s.phase = .validate → s.regionOnDevice = false) : EngineReady s where
  busy_iff := hinv.busyIff
  done_iff := by
    refine ⟨fun hdone => by_contra fun hphase => ?_, fun hphase => hjob.resolve_left fun hbusy => ?_⟩
    · simp [hinv.notBusyAndDone (hinv.busyIff.2 hphase)] at hdone
    · exact hinv.busyIff.1 hbusy hphase
  ordinary hphase := by
    cases hp : s.phase with
    | idle => exact absurd hp hphase
    | validate => exact hdev hp
    | header => exact hinv.ordinaryMemory (by rw [State.pastValidate, hp])
    | token => exact hinv.ordinaryMemory (by rw [State.pastValidate, hp])
    | pad => exact hinv.ordinaryMemory (by rw [State.pastValidate, hp])
  argsValid := hinv.argsValid
  off_le hphase := (hinv.tokenPhase hphase).1
  flagPos_lt hphase := hinv.flagPosBound (by simp [hphase])

/-- The host's reads and the schedule are no part of the job. -/
theorem EngineReady.after_turn (h : EngineReady s) (rdata : Word) (ops : List HostOp) (sched : List Agent) :
    EngineReady { s with rdata := rdata, hostOps := ops, sched := sched } :=
  ⟨h.busy_iff, h.done_iff, h.ordinary, h.argsValid, h.off_le, h.flagPos_lt⟩

theorem EngineReady.useTurn (h : EngineReady s) : EngineReady s.useTurn := h.after_turn _ _ _

/-- The bound of the spec's derivation: VALIDATE, HEADER, a step per token, the loop's end, the padding, completion. -/
theorem engineLeft_le (hinv : Inv s) : engineLeft s ≤ s.n - s.off + 7 := by
  rw [engineLeft]
  cases hp : s.phase with
  | idle => exact Nat.zero_le _
  | validate =>
    obtain ⟨hoff, -⟩ := hinv.fresh (.inl hp)
    simp [hoff]
  | header =>
    obtain ⟨hoff, -⟩ := hinv.fresh (.inr hp)
    simp [hoff]
  | token => simp
  | pad =>
    have hpad := (padCount_aligns s.cursor).1
    simp only
    omega

/-- A running job needs another step. -/
theorem engineLeft_pos (hphase : s.phase ≠ .idle) : 0 < engineLeft s := by
  unfold engineLeft
  split
  · next hidle => exact absurd hidle hphase
  all_goals exact Nat.succ_pos _

/-! #### The engine's steps -/

/-- The end of a job is progress. -/
theorem engineAdvances_ended (hphase : s.phase ≠ .idle) (hidle : t.phase = .idle) (hbusy : t.busy = false)
    (hdone : t.done = true) (hops : t.hostOps = s.hostOps) (hsched : t.sched = s.sched) : EngineAdvances s t where
  ready := engineReady_of_ended hidle hbusy hdone
  left_lt := by
    have hleft : engineLeft t = 0 := by rw [engineLeft, hidle]
    rw [hleft]
    exact engineLeft_pos hphase
  hostOps := hops
  sched := hsched

theorem engineAdvances_exhausted (hphase : s.phase ≠ .idle) (h : Repacked s t) : EngineAdvances s (exhausted t) := by
  obtain ⟨_, _, _, _, _, rfl⟩ := h
  exact engineAdvances_ended hphase rfl rfl rfl rfl rfl

theorem tokenStep_emits (hend : s.off ≠ s.n) (hin : s.inRegion.fits = true) :
    tokenStep s = exec s.selected.toInstr s := by
  rw [tokenStep, if_neg hend, if_pos hin]

/-- A job that goes on stays ready: the flags and the launch stay, its arguments are valid by now. -/
theorem EngineReady.goes_on (h : EngineReady s) (hphase : s.phase ≠ .idle) (hgo : t.phase ≠ .idle)
    (hbusy : t.busy = s.busy) (hdone : t.done = s.done) (hdev : t.regionOnDevice = s.regionOnDevice)
    (hargs : t.argsInvalid = false) (hoff : t.phase = .token → t.off ≤ t.n)
    (hflag : t.phase = .token → 0 < t.count → t.flagPos < t.cursor) : EngineReady t where
  busy_iff := by rw [hbusy, h.busy_iff]; exact iff_of_true hphase hgo
  done_iff := by rw [hdone, h.done_iff]; exact iff_of_false hphase hgo
  ordinary _ := hdev.trans (h.ordinary hphase)
  argsValid _ := hargs
  off_le := hoff
  flagPos_lt := hflag

theorem validate_advances (h : EngineReady s) (hphase : s.phase = .validate) :
    ∃ t, engineStep s = .next t ∧ EngineAdvances s t := by
  have hrun : s.phase ≠ .idle := by simp [hphase]
  rw [engineStep_validate hphase]
  cases hargs : s.argsInvalid with
  | true => exact ⟨_, validateStep_invalid hargs, engineAdvances_ended hrun rfl rfl rfl rfl rfl⟩
  | false =>
    refine ⟨_, validateStep_valid hargs (h.ordinary hrun), ?_, ?_, rfl, rfl⟩
    · exact h.goes_on hrun Phase.noConfusion rfl rfl rfl hargs Phase.noConfusion Phase.noConfusion
    · rw [engineLeft, engineLeft, hphase]
      exact Nat.lt_succ_self _

theorem header_advances (h : EngineReady s) (hphase : s.phase = .header) :
    ∃ t, engineStep s = .next t ∧ EngineAdvances s t := by
  have hrun : s.phase ≠ .idle := by simp [hphase]
  have hargs : s.argsInvalid = false := h.argsValid (by rw [State.pastValidate, hphase])
  obtain ⟨hfits, hover⟩ := headerStep s.n s (State.n_le_of_argsValid hargs)
  rw [engineStep_header hphase, ← exec_header]
  rcases Nat.lt_or_ge s.cap (s.cursor + 4) with hcap | hcap
  · exact ⟨_, hover hcap, engineAdvances_exhausted hrun (.refl s)⟩
  · refine ⟨_, hfits hcap (State.fits_of_argsValid hargs).2, ?_, ?_, rfl, rfl⟩
    · exact h.goes_on hrun Phase.noConfusion rfl rfl rfl hargs (fun _ => Nat.zero_le _)
        fun _ hcount => absurd hcount (Nat.lt_irrefl 0)
    · rw [engineLeft, engineLeft, hphase]
      exact Nat.lt_succ_self _

/-- The selected token ends inside the input, past the input cursor (R123). -/
theorem selected_span (hoff : s.off < s.n) :
    s.off < s.off + s.selected.span ∧ s.off + s.selected.span ≤ s.n := by
  obtain ⟨hlit, hmatch, hlt, hle⟩ := selectAdvances s.inByte s.n s.off hoff
  have hnext : (select s.inByte s.n s.off).2 = s.off + s.selected.span := by
    rw [State.selected]
    cases htok : (select s.inByte s.n s.off).1 with
    | literal b => exact hlit b htok
    | backRef l d => exact (hmatch l d htok).1
  rw [← hnext]
  exact ⟨hlt, hle⟩

/-- The state after a token's emission is ready again, with less input left. -/
theorem token_emitted_advances (h : EngineReady s) (hphase : s.phase = .token) {next : Nat} (hlt : s.off < next)
    (hle : next ≤ s.n) (hpack : Repacked s t) (hflag : 0 < t.count → t.flagPos < t.cursor) :
    EngineAdvances s { t with off := next } := by
  have hrun : s.phase ≠ .idle := by simp [hphase]
  have hargs : s.argsInvalid = false := h.argsValid (by rw [State.pastValidate, hphase])
  obtain ⟨_, _, _, _, _, rfl⟩ := hpack
  refine ⟨h.goes_on hrun hrun rfl rfl rfl hargs (fun _ => hle) fun _ => hflag, ?_, rfl, rfl⟩
  simp only [engineLeft, hphase, State.n] at hle ⊢
  omega

theorem token_advances (h : EngineReady s) (hphase : s.phase = .token) :
    ∃ t, engineStep s = .next t ∧ EngineAdvances s t := by
  have hrun : s.phase ≠ .idle := by simp [hphase]
  have hargs : s.argsInvalid = false := h.argsValid (by rw [State.pastValidate, hphase])
  have hflag := h.flagPos_lt hphase
  obtain ⟨hin, hout⟩ := State.fits_of_argsValid hargs
  rw [engineStep_token hphase]
  by_cases hend : s.off = s.n
  · refine ⟨_, tokenStep_end hend, ?_, ?_, rfl, rfl⟩
    · exact h.goes_on hrun Phase.noConfusion rfl rfl rfl hargs Phase.noConfusion Phase.noConfusion
    · have hpad := (padCount_aligns s.cursor).1
      simp only [engineLeft, hphase]
      omega
  · obtain ⟨hlt, hle⟩ := selected_span (lt_of_le_of_ne (h.off_le hphase) hend)
    obtain ⟨hemit, hnoFlag, hnoBytes⟩ := exec_toInstr_emits (tok := s.selected) hout hflag
    rw [tokenStep_emits hend hin]
    by_cases hreserve : s.count = 0 ∧ s.cap < s.cursor + 1
    · obtain ⟨hcount, hcap⟩ := hreserve
      exact ⟨_, hnoFlag hcount hcap, engineAdvances_exhausted hrun ⟨_, _, _, _, _, rfl⟩⟩
    · rcases Nat.lt_or_ge s.cap ((opened s).cursor + s.selected.bytes.length) with hcap | hcap
      · exact ⟨_, hnoBytes (fun hcount => by omega) hcap, engineAdvances_exhausted hrun (opened_repacked s)⟩
      · have hpack := (opened_repacked s).trans ((tokenPut_repacked s.selected _).trans
          (closed_repacked (s.off + s.selected.span) _))
        have hpos : (tokenPut s.selected (opened s)).flagPos < (tokenPut s.selected (opened s)).cursor :=
          (opened_flagPos_lt hflag).trans_le (Nat.le_add_right _ _)
        exact ⟨_, hemit hcap, token_emitted_advances h hphase hlt hle hpack (closed_flagPos_lt hpos)⟩

theorem pad_advances (h : EngineReady s) (hphase : s.phase = .pad) :
    ∃ t, engineStep s = .next t ∧ EngineAdvances s t := by
  have hrun : s.phase ≠ .idle := by simp [hphase]
  have hargs : s.argsInvalid = false := h.argsValid (by rw [State.pastValidate, hphase])
  obtain ⟨hdone, hfits, hover, -⟩ := padStep s
  rw [engineStep_pad hphase, ← exec_pad]
  by_cases halign : s.cursor % Config.padMultiple = 0
  · exact ⟨_, hdone halign, engineAdvances_ended hrun rfl rfl rfl rfl rfl⟩
  · rcases Nat.lt_or_ge s.cap (s.cursor + 1) with hcap | hcap
    · exact ⟨_, hover halign hcap, engineAdvances_exhausted hrun (.refl s)⟩
    · refine ⟨_, hfits halign hcap (State.fits_of_argsValid hargs).2, ?_, ?_, rfl, rfl⟩
      · exact h.goes_on hrun hrun rfl rfl rfl hargs (fun hp => by simp [hphase] at hp) fun hp => by simp [hphase] at hp
      · simp only [engineLeft, hphase, padCount, Config.padMultiple] at halign ⊢
        omega

/-- A running job's engine step goes on, and less of the job is left. -/
theorem engineStep_advances (h : EngineReady s) (hbusy : s.busy = true) :
    ∃ t, engineStep s = .next t ∧ EngineAdvances s t := by
  cases hphase : s.phase with
  | idle => exact absurd hphase (h.busy_iff.1 hbusy)
  | validate => exact validate_advances h hphase
  | header => exact header_advances h hphase
  | token => exact token_advances h hphase
  | pad => exact pad_advances h hphase

end

end Sys2Proof.Proofs

/-! ### WAIT_DONE and the end of a run (R82, R203, R204) -/

namespace Sys2Proof.Proofs

open Sys2Proof Sys2Proof.Machine Sys2Proof.Stated

/-- A job has been started and WAIT_DONE is the host's next operation. -/
structure Waiting (rest : List HostOp) (s : State) : Prop where
  ready : EngineReady s
  hostOps : s.hostOps = .waitDone :: rest

/-- A bound on the steps until the host reads DONE. -/
def waitLeft (s : State) : Nat := s.sched.length + engineLeft s

section
variable {s t u : State} {rest : List HostOp}

theorem Waiting.readsDone_iff (h : Waiting rest s) : s.readsDone = true ↔ s.done = true ∧ s.turn = .host := by
  rw [State.readsDone_iff, h.hostOps]
  simp [HostOp.readsStatus]

theorem Waiting.acceptsStart (h : Waiting rest s) : s.acceptsStart = false := by
  simp [State.acceptsStart, h.hostOps]

/-- An agent that the empty schedule would not choose has its turn from the schedule, which gets shorter. -/
theorem tail_length_lt_of_scheduled (h : s.sched ≠ []) : s.sched.tail.length < s.sched.length := by
  obtain ⟨a, rest, hsched⟩ := List.exists_cons_of_ne_nil h
  simp [hsched]

/-- Until the host reads DONE every step goes on, keeps WAIT_DONE on the list and comes nearer to that read. -/
theorem Waiting.step (h : Waiting rest s) (hreads : s.readsDone = false) :
    ∃ t, step s = .next t ∧ Waiting rest t ∧ waitLeft t < waitLeft s := by
  have hnot : ¬ (s.done = true ∧ s.turn = .host) := by rw [← h.readsDone_iff, hreads]; exact Bool.false_ne_true
  cases hturn : s.turn with
  | host =>
    have hdone : s.done = false := by simpa [hturn] using hnot
    have hbusy : s.busy = true := h.ready.busy_iff.2 fun hp => by simp [h.ready.done_iff.2 hp] at hdone
    have hsched : s.sched ≠ [] := fun hnil => by simp [State.turn_nil_busy hnil hbusy] at hturn
    refine ⟨_, step_waitDone_repeats hturn h.hostOps hdone, ⟨h.ready.after_turn _ _ _, h.hostOps⟩, ?_⟩
    exact Nat.add_lt_add_right (tail_length_lt_of_scheduled hsched) _
  | engine =>
    rw [step_engine hturn]
    by_cases hbusy : s.busy = true
    · obtain ⟨t, hstep, hadv⟩ := engineStep_advances h.ready.useTurn hbusy
      refine ⟨t, hstep, ⟨hadv.ready, hadv.hostOps.trans h.hostOps⟩, ?_⟩
      have hleft : engineLeft t < engineLeft s := hadv.left_lt
      rw [waitLeft, waitLeft, hadv.sched, State.useTurn_sched, List.length_tail]
      omega
    · have hphase : s.phase = .idle := by simpa [h.ready.busy_iff] using hbusy
      have hsched : s.sched ≠ [] := fun hnil => by simp [State.turn_nil_idle hnil (by simpa using hbusy)] at hturn
      refine ⟨_, engineStep_idle hphase, ⟨h.ready.useTurn, h.hostOps⟩, ?_⟩
      exact Nat.add_lt_add_right (tail_length_lt_of_scheduled hsched) _

/-- What holds in `s`, and before step `k` of the run from the next state, holds before step `k + 1` of the run
from `s`. -/
theorem before_succ {P : State → Prop} {k : Nat} (hstep : Machine.step s = .next t) (hs : P s)
    (ht : ∀ j < k, ∀ v : State, run j t = .next v → P v) : ∀ j < k + 1, ∀ v : State, run j s = .next v → P v := by
  intro j hj v hv
  cases j with
  | zero =>
    obtain rfl := Host.Outcome.next.inj hv
    exact hs
  | succ j => exact ht j (Nat.lt_of_succ_lt_succ hj) v (run_succ_next hstep ▸ hv)

/-- `u` is the first state of the run from `s` whose next step reads DONE, and WAIT_DONE stays on the list until there. -/
structure FirstRead (rest : List HostOp) (k : Nat) (s u : State) : Prop where
  run_eq : run k s = .next u
  waiting : Waiting rest u
  reads : u.readsDone = true
  before : ∀ j < k, ∀ v : State, run j s = .next v → v.readsDone = false ∧ Waiting rest v
  ends : ∀ (l : Nat) (job : Region), k ≤ l → runToEnd l (some job) s =
    .next (.ended { status := u.statusWord, result := u.result, output := job.bytes u.mem })

theorem FirstRead.step_back {k : Nat} (h : FirstRead rest k t u) (hs : Waiting rest s) (hreads : s.readsDone = false)
    (hstep : Machine.step s = .next t) : FirstRead rest (k + 1) s u where
  run_eq := (run_succ_next hstep).trans h.run_eq
  waiting := h.waiting
  reads := h.reads
  before := before_succ hstep ⟨hreads, hs⟩ h.before
  ends l job hl := by
    obtain ⟨l, rfl⟩ := Nat.exists_eq_add_of_le' hl
    rw [← Nat.add_assoc, runToEnd_succ_next (Progress.at_going hreads) hstep, jobAfter_other hs.acceptsStart]
    exact h.ends _ job (Nat.le_add_left k l)

/-- WAIT_DONE ends (R203): by induction on the bound of the steps left. -/
theorem Waiting.firstRead (h : Waiting rest s) : ∃ k u, k ≤ waitLeft s ∧ FirstRead rest k s u := by
  induction hm : waitLeft s using Nat.strong_induction_on generalizing s with
  | _ m ih =>
    cases hreads : s.readsDone with
    | true =>
      exact ⟨0, s, Nat.zero_le _, rfl, h, hreads, fun j hj => absurd hj (Nat.not_lt_zero j),
        fun _ _ _ => runToEnd_ended (Progress.at_reads hreads)⟩
    | false =>
      obtain ⟨t, hstep, ht, hlt⟩ := h.step hreads
      obtain ⟨k, u, hk, hfirst⟩ := ih (waitLeft t) (hm ▸ hlt) ht rfl
      exact ⟨k + 1, u, by omega, hfirst.step_back h hreads hstep⟩

/-! #### An accepted START -/

/-- An accepted START is a write of CTRL with bit 0 set while BUSY = 0, on the host's turn. -/
theorem acceptsStart_access {op : HostOp} (hstart : s.acceptsStart = true) (hops : s.hostOps = op :: rest) :
    s.turn = .host ∧ ∃ a v, op = .access a ∧ decodeAccess s.busy a = .ok (.wrCtrlStart v) := by
  rw [State.acceptsStart, hops, Bool.and_eq_true, decide_eq_true_eq] at hstart
  obtain ⟨hturn, hop⟩ := hstart
  refine ⟨hturn, ?_⟩
  cases op with
  | access a =>
    simp only at hop
    split at hop
    · next v hdec => exact ⟨a, v, rfl, hdec⟩
    · cases hop
  | waitDone => cases hop
  | memWrite _ _ => cases hop
  | memRead _ => cases hop
  | resetBlock => cases hop

/-- The case of WR CTRL that starts a job (R191). -/
theorem decodeWrCtrl_start {busy : Bool} {v w : Word} (h : decodeWrCtrl busy w = .wrCtrlStart v) :
    busy = false ∧ v.getLsbD 0 = true := by
  unfold decodeWrCtrl at h
  split at h
  · next hbit =>
    split at h
    · cases h
    · next hbusy =>
      cases h
      exact ⟨by simpa using hbusy, hbit⟩
  · cases h

/-- Slot 0 alone decodes to a START. -/
theorem decodeSlot_start {busy : Bool} {slot : Nat} {op : BusOp} {v : Word}
    (h : decodeSlot busy slot op = .wrCtrlStart v) : busy = false ∧ v.getLsbD 0 = true := by
  cases op with
  | read =>
    simp only [decodeSlot, decodeRead] at h
    split at h <;> cases h
  | write w =>
    simp only [decodeSlot, decodeWrite] at h
    split at h
    · exact decodeWrCtrl_start h
    all_goals cases h

theorem decodeAccess_start {busy : Bool} {a : Access} {v : Word} (h : decodeAccess busy a = .ok (.wrCtrlStart v)) :
    busy = false ∧ v.getLsbD 0 = true := by
  unfold decodeAccess at h
  split at h
  · cases h
  · split at h
    · cases h
    · exact decodeSlot_start (Except.ok.inj h)

theorem hostAccess_start {a : Access} {v : Word} (h : decodeAccess s.busy a = .ok (.wrCtrlStart v)) :
    hostAccess a s = .next s.startJob := by
  obtain ⟨hbusy, hbit⟩ := decodeAccess_start h
  rw [hostAccess_ok h, exec_wrCtrlStart, writeCtrl_starts hbit hbusy]

theorem startJob_ready (hdev : s.regionOnDevice = false) : EngineReady s.startJob where
  busy_iff := iff_of_true rfl Phase.noConfusion
  done_iff := iff_of_false Bool.false_ne_true Phase.noConfusion
  ordinary _ := hdev
  argsValid := Bool.noConfusion
  off_le := Phase.noConfusion
  flagPos_lt := Phase.noConfusion

/-- An accepted START is a whole step, after which WAIT_DONE waits for the new job. -/
theorem step_start {op : HostOp} (hstart : s.acceptsStart = true) (hops : s.hostOps = op :: .waitDone :: rest)
    (hdev : s.regionOnDevice = false) : ∃ t, step s = .next t ∧ Waiting rest t := by
  obtain ⟨hturn, a, v, rfl, hdec⟩ := acceptsStart_access hstart hops
  refine ⟨State.startJob { s with sched := s.sched.tail, hostOps := .waitDone :: rest }, ?_, startJob_ready hdev, rfl⟩
  rw [step_access hturn hops]
  exact hostAccess_start hdec

/-- An accepted START is no STATUS read. -/
theorem readsDone_of_start {op : HostOp} (hstart : s.acceptsStart = true) (hops : s.hostOps = op :: rest) :
    s.readsDone = false := by
  obtain ⟨-, a, v, rfl, hdec⟩ := acceptsStart_access hstart hops
  rw [(decodeAccess_start hdec).1] at hdec
  simp [State.readsDone, hops, HostOp.readsStatus, hdec]

end

/-- Settles O55: each WAIT_DONE turn by DONE; the first read of DONE, which the schedule and the engine's progress bound;
and the run from an accepted START, which ends there. -/
theorem waitDoneEnds : Obligations.WaitDoneEnds := by
  refine ⟨fun s rest hturn hops => ⟨step_waitDone_repeats hturn hops, step_waitDone_over hturn hops⟩,
    fun s rest hinv hjob hdev hops => ?_, fun s op rest _ hstart hops hdev => ?_⟩
  · have hwait : Waiting rest s := ⟨engineReady_of_inv hinv hjob hdev, hops⟩
    obtain ⟨k, u, hk, h⟩ := hwait.firstRead
    have hbound : k ≤ s.sched.length + (s.n - s.off) + 7 := by
      have hleft := engineLeft_le hinv
      rw [waitLeft] at hk
      omega
    obtain ⟨hdone, hturn⟩ := h.waiting.readsDone_iff.1 h.reads
    refine ⟨k, u, _, hbound, h.run_eq, h.reads, fun j hj v hv => ?_,
      step_waitDone_over hturn h.waiting.hostOps hdone, rfl, hdone, rfl⟩
    obtain ⟨hreads, hv⟩ := h.before j hj v hv
    exact ⟨hreads, hv.hostOps.trans hops.symm⟩
  · obtain ⟨t, hstep, hwait⟩ := step_start hstart hops hdev
    obtain ⟨k, u, -, h⟩ := hwait.firstRead
    have hbefore := before_succ (P := (·.readsDone = false)) hstep (readsDone_of_start hstart hops)
      fun j hj v hv => (h.before j hj v hv).1
    refine ⟨k + 1, u, (run_succ_next hstep).trans h.run_eq, h.reads, hbefore, fun l hl => ?_⟩
    obtain ⟨l, rfl⟩ := Nat.exists_eq_add_of_le' hl
    rw [← Nat.add_assoc, runToEnd_succ_next (Progress.at_none s) hstep, jobAfter_start hstart]
    exact h.ends _ _ (Nat.le_add_left k l)

end Sys2Proof.Proofs

/-! ### A reset of the block (R36, R230, R231) -/

namespace Sys2Proof.Proofs

open Sys2Proof Sys2Proof.Machine

section
variable {s : State} {rest : List HostOp}

theorem resetBlock_idle (h : s.phase = .idle) : s.resetBlock = s.clearBlock := if_pos h

theorem resetBlock_during_job (h : s.phase ≠ .idle) :
    s.resetBlock = { s.clearBlock with
      mem := s.mem.scramble s.outAddr.toNat s.freeCtr s.outCap.toNat, freeCtr := s.freeCtr + s.outCap.toNat } := if_neg h

/-- Whether a job runs or not, only memory and the count of free values tell a reset from the cleared block. -/
theorem resetBlock_eq_cleared (s : State) :
    ∃ mem freeCtr, s.resetBlock = { s.clearBlock with mem := mem, freeCtr := freeCtr } := by
  by_cases hphase : s.phase = .idle
  · exact ⟨_, _, resetBlock_idle hphase⟩
  · exact ⟨_, _, resetBlock_during_job hphase⟩

theorem resetBlock_mem_idle (h : s.phase = .idle) : s.resetBlock.mem = s.mem := by
  rw [resetBlock_idle h, State.clearBlock_mem]

/-- The free values of R231 go into the abandoned job's output region alone. -/
theorem resetBlock_onlyOutputWritten (s : State) : onlyOutputWritten s s.resetBlock := by
  intro a ha
  by_cases hphase : s.phase = .idle
  · rw [resetBlock_mem_idle hphase]
  · rw [resetBlock_during_job hphase]
    exact Memory.read_scramble_outside ((Region.contains_eq_false _ _).1 ha) _ _

theorem step_resetBlock (hturn : s.turn = .host) (hops : s.hostOps = .resetBlock :: rest) :
    step s = .next { s.useTurn.resetBlock with hostOps := rest } := by
  rw [step_host hturn, hostStep, State.useTurn_hostOps, hops]

end

/-- Settles O48: the host's turn is the reset operation, which clears the block and frees at most the output region. -/
theorem blockReset : Obligations.BlockReset := by
  intro s rest hturn hops
  refine ⟨_, step_resetBlock hturn hops, rfl, ?_, resetBlock_mem_idle (s := s.useTurn),
    resetBlock_onlyOutputWritten s.useTurn⟩
  obtain ⟨mem, freeCtr, heq⟩ := resetBlock_eq_cleared s.useTurn
  simp [heq]

end Sys2Proof.Proofs

/-! ### What the host may not do with a job's regions (R234, R235, R239) -/

namespace Sys2Proof.Proofs

open Sys2Proof Sys2Proof.Machine Sys2Proof.Stated

section
variable {s : State} {a : Word} {v : Byte} {rest : List HostOp}

/-- A write of system memory on the host's turn uses up the turn and the operation. -/
theorem step_memWrite (hturn : s.turn = .host) (hops : s.hostOps = .memWrite a v :: rest) :
    step s = hostMemWrite a v { s with sched := s.sched.tail, hostOps := rest } := by
  rw [step_host hturn, hostStep, State.useTurn_hostOps, hops]
  rfl

theorem hostMemWrite_duringJob (hbusy : s.busy = true) (hregion : inJobRegion s a.toNat = true)
    (hdev : s.isDevice a.toNat = false) : hostMemWrite a v s = .refused .hostWriteDuringJob := by
  rw [inJobRegion] at hregion
  rw [hostMemWrite, hdev, if_neg Bool.false_ne_true, hbusy, hregion]
  rfl

theorem validateStep_onDevice (h : s.argsInvalid = false) (hdev : s.regionOnDevice = true) :
    validateStep s = .refused .deviceRegion := by
  simp [validateStep, h, hdev]

end

/-- Settles O42: the turn and the operation used up are no part of what the write's checks look at. -/
theorem hostWriteDuringJobRefused : Obligations.HostWriteDuringJobRefused := by
  intro s a v rest hturn hops hbusy hregion hdev
  rw [step_memWrite hturn hops]
  exact hostMemWrite_duringJob hbusy hregion hdev

/-- Settles O44: VALIDATE looks at the devices once the arguments are valid. -/
theorem deviceLaunchRefused : Obligations.DeviceLaunchRefused := by
  intro s hphase hargs hdev
  rw [engineStep_validate hphase, validateStep_onDevice hargs hdev]

end Sys2Proof.Proofs

/-! ### Every job ends (R15) -/

namespace Sys2Proof.Proofs

open Sys2Proof Sys2Proof.Machine Sys2Proof.Stated

/-- With the engine taking every turn of a job, the job ends within the steps its bound leaves. -/
theorem EngineReady.run_ends {s : State} (h : EngineReady s) (hsched : s.sched = []) :
    ∃ k t, k ≤ engineLeft s ∧ run k s = .next t ∧ t.phase = .idle ∧ t.done = true := by
  induction hm : engineLeft s using Nat.strong_induction_on generalizing s with
  | _ m ih =>
    by_cases hbusy : s.busy = true
    · obtain ⟨u, hstep, hadv⟩ := engineStep_advances h hbusy
      obtain ⟨k, t, hk, hrun, hend⟩ := ih (engineLeft u) (hm ▸ hadv.left_lt) hadv.ready (hadv.sched.trans hsched) rfl
      have hfirst : step s = .next u := by
        rw [step_engine (State.turn_nil_busy hsched hbusy), State.useTurn_nil hsched, hstep]
      have hlt := hadv.left_lt
      exact ⟨k + 1, t, by omega, (run_succ_next hfirst).trans hrun, hend⟩
    · have hphase : s.phase = .idle := by simpa [h.busy_iff] using hbusy
      exact ⟨0, s, Nat.zero_le _, rfl, hphase, h.done_iff.2 hphase⟩

/-- Settles O54: the invariant makes the job ready, and its bound is within the one of the statement. -/
theorem jobTerminates : Obligations.JobTerminates := by
  intro s hinv hbusy hsched hdev
  obtain ⟨k, t, hk, hrun, hend⟩ := (engineReady_of_inv hinv (.inl hbusy) hdev).run_ends hsched
  exact ⟨k, t, hk.trans (engineLeft_le hinv), hrun, hend⟩

end Sys2Proof.Proofs

/-! ### Decoding and encoding undo each other (R71 to R76, R80) -/

namespace Sys2Proof.Proofs

open Sys2Proof Sys2Proof.Machine

/-! #### Stream elements -/

/-- An element that uses all its bytes is what the decoder answers. -/
theorem decode_stream_iff {slot : StreamSlot} {bytes : List Byte} {i : Instr} :
    decode (.stream slot bytes) = .ok i ↔ decodeElement slot bytes = .ok (i, []) := by
  simp only [decode]
  split <;> simp_all

theorem decode_headerBytes {n : Nat} (h : n ≤ Config.maxInputLength) :
    decode (.stream .header (headerBytes n)) = .ok (.header n) := by
  have helement := decodeElement_headerBytes h []
  rw [List.append_nil] at helement
  exact decode_stream_iff.2 helement

theorem decode_matchBytes {l d : Nat} (h : (Token.backRef l d).wf = true) :
    decode (.stream (.token true) [matchByte1 l d, matchByte2 d]) = .ok (.backRef l d) := by
  rw [decode_stream_iff, decodeElement, matchLengthOf_matchByte1 h, matchDistanceOf_matchBytes h]

/-- Three bytes spell a number of 24 bits. -/
theorem leNat_three_le (b1 b2 b3 : Byte) : leNat [b1, b2, b3] ≤ Config.maxInputLength := by
  have h1 := b1.isLt
  have h2 := b2.isLt
  have h3 := b3.isLt
  simp only [leNat, Config.maxInputLength]
  omega

/-- The bytes above the tag are those of the length they spell. -/
theorem headerBytes_leNat (b1 b2 b3 : Byte) : headerBytes (leNat [b1, b2, b3]) = [0x10, b1, b2, b3] := by
  rw [headerBytes_eq, List.cons_inj_right, List.cons.injEq, List.cons.injEq, List.cons.injEq]
  simp only [leNat, BitVec.toNat_eq, BitVec.toNat_ofNat, and_true]
  omega

/-- The two bytes of a match token, whatever they are, are in the range of the format (R74). -/
theorem wf_matchOf (b1 b2 : Byte) : (Token.backRef (matchLengthOf b1) (matchDistanceOf b1 b2)).wf = true := by
  rw [wf_backRef_iff, matchLengthOf, matchDistanceOf, Config.minMatch]
  omega

theorem matchByte1_matchOf (b1 b2 : Byte) : matchByte1 (matchLengthOf b1) (matchDistanceOf b1 b2) = b1 := by
  obtain ⟨⟨-, hl⟩, -, hd⟩ := (wf_backRef_iff _ _).1 (wf_matchOf b1 b2)
  rw [BitVec.toNat_eq, matchByte1_toNat hl hd, matchLengthOf, matchDistanceOf, Config.minMatch]
  omega

theorem matchByte2_matchOf (b1 b2 : Byte) : matchByte2 (matchDistanceOf b1 b2) = b2 := by
  rw [BitVec.toNat_eq, matchByte2_toNat, matchDistanceOf]
  omega

/-- What the decoder reads at a place of the stream is well formed and has the bytes it was read from. -/
theorem encode_of_decodeElement {slot : StreamSlot} {bytes : List Byte} {i : Instr}
    (h : decodeElement slot bytes = .ok (i, [])) : i.wf = true ∧ encode i = .stream slot bytes := by
  unfold decodeElement at h
  split at h
  case h_1 b0 b1 b2 b3 rest =>
    split at h
    · next htag =>
      cases h
      have hb0 : b0 = 0x10 := BitVec.eq_of_toNat_eq htag
      exact ⟨decide_eq_true (leNat_three_le b1 b2 b3), by rw [encode, headerBytes_leNat, hb0]⟩
    · cases h
  case h_3 => cases h; exact ⟨rfl, rfl⟩
  case h_5 b1 b2 rest =>
    cases h
    exact ⟨wf_matchOf b1 b2, by rw [encode, matchByte1_matchOf, matchByte2_matchOf]⟩
  case h_7 => cases h; exact ⟨rfl, rfl⟩
  case h_9 =>
    split at h
    · next hzero => cases h; exact ⟨rfl, by rw [encode, hzero]⟩
    · cases h
  all_goals cases h

/-! #### Register accesses -/

theorem decode_wordAccess (busy : Bool) (op : BusOp) {slot : Nat} (h : slot < 8) :
    decode (wordAccess busy (BitVec.ofNat 5 (4 * slot)) op) = .ok (decodeSlot busy slot op) := by
  have hoffset : (BitVec.ofNat 5 (4 * slot)).toNat = 4 * slot := by rw [BitVec.toNat_ofNat]; omega
  have haligned : ¬ 4 * slot % 4 ≠ 0 := by omega
  rw [wordAccess, decode, decodeAccess, hoffset, if_neg (not_not.2 rfl), if_neg haligned,
    Nat.mul_div_cancel_left slot (by decide)]

/-- When an access decodes: it is aligned and 32 bits wide, and it is its slot of the table (R80). -/
theorem decodeAccess_eq_ok {busy : Bool} {a : Access} {i : Instr} (h : decodeAccess busy a = .ok i) :
    a.width = 4 ∧ a.offset.toNat % 4 = 0 ∧ i = decodeSlot busy (a.offset.toNat / 4) a.op := by
  unfold decodeAccess at h
  split at h
  · cases h
  · next hwidth =>
    split at h
    · cases h
    · next hoffset => exact ⟨not_not.1 hwidth, not_not.1 hoffset, (Except.ok.inj h).symm⟩

theorem decodeWrCtrl_start_bit {v : Word} (hbit : v.getLsbD 0 = true) (busy : Bool) :
    decodeWrCtrl busy v = if busy then .wrCtrlBusy v else .wrCtrlStart v := if_pos hbit

theorem decodeWrCtrl_no_start_bit {v : Word} (hbit : v.getLsbD 0 = false) (busy : Bool) :
    decodeWrCtrl busy v = .wrCtrlNoStart v := if_neg (by rw [hbit]; exact Bool.false_ne_true)

/-- The case of WR CTRL that the decoder picks is the one whose conditions hold (R191 to R193). -/
theorem decodeWrCtrl_encodes (busy : Bool) (v : Word) :
    (decodeWrCtrl busy v).wf = true ∧ ∃ b, encode (decodeWrCtrl busy v) = wordAccess b 0x00 (.write v) := by
  cases hbit : v.getLsbD 0 with
  | false =>
    rw [decodeWrCtrl_no_start_bit hbit]
    exact ⟨by rw [Instr.wf, hbit]; rfl, false, rfl⟩
  | true =>
    rw [decodeWrCtrl_start_bit hbit]
    cases busy with
    | false => exact ⟨hbit, false, rfl⟩
    | true => exact ⟨hbit, true, rfl⟩

/-- Every slot of the register table is the operation of its own offset. -/
theorem decodeSlot_encodes (busy : Bool) {slot : Nat} (h : slot < 8) (op : BusOp) :
    (decodeSlot busy slot op).wf = true ∧
      ∃ b, encode (decodeSlot busy slot op) = wordAccess b (BitVec.ofNat 5 (4 * slot)) op := by
  cases op with
  | read => interval_cases slot <;> exact ⟨rfl, false, rfl⟩
  | write v =>
    rcases Nat.eq_zero_or_pos slot with rfl | hpos
    · exact decodeWrCtrl_encodes busy v
    · interval_cases slot <;> exact ⟨rfl, false, rfl⟩

/-- An access that decodes is the one its instruction makes, but for BUSY. -/
theorem encode_of_decodeAccess {busy : Bool} {a : Access} {i : Instr} (h : decodeAccess busy a = .ok i) :
    i.wf = true ∧ ∃ b, encode i = .bus b a := by
  obtain ⟨hwidth, hoffset, rfl⟩ := decodeAccess_eq_ok h
  have hslot : a.offset.toNat / 4 < 8 := by omega
  have hback : BitVec.ofNat 5 (4 * (a.offset.toNat / 4)) = a.offset := by
    rw [Nat.mul_div_cancel' (Nat.dvd_of_mod_eq_zero hoffset), BitVec.ofNat_toNat, BitVec.setWidth_eq]
  obtain ⟨hwf, b, hencode⟩ := decodeSlot_encodes busy hslot a.op
  refine ⟨hwf, b, ?_⟩
  rw [hencode, hback, wordAccess, ← hwidth]

/-- The slot of an argument register in the window (R80). -/
def argSlot : ArgReg → Nat
  | .inAddr => 2
  | .inLen => 3
  | .outAddr => 4
  | .outCap => 5

theorem decode_argAccess (r : ArgReg) (op : BusOp) :
    decode (wordAccess false r.offset op) = .ok (decodeSlot false (argSlot r) op) := by
  have hoffset : r.offset = BitVec.ofNat 5 (4 * argSlot r) := by cases r <;> rfl
  rw [hoffset]
  exact decode_wordAccess false op (by cases r <;> decide)

/-- Settles O2: the elements by their bytes, the accesses by their slot of the register table. -/
theorem decodeOfEncode : Obligations.DecodeOfEncode := by
  intro i hwf
  cases i with
  | header n => exact decode_headerBytes (of_decide_eq_true hwf)
  | flag f => rfl
  | lit b => rfl
  | backRef l d => exact decode_matchBytes hwf
  | pad => rfl
  | wrCtrlStart v =>
    exact (decode_wordAccess false (.write v) (slot := 0) (by decide)).trans
      (congrArg Except.ok (decodeWrCtrl_start_bit hwf false))
  | wrCtrlBusy v =>
    exact (decode_wordAccess true (.write v) (slot := 0) (by decide)).trans
      (congrArg Except.ok (decodeWrCtrl_start_bit hwf true))
  | wrCtrlNoStart v =>
    exact (decode_wordAccess false (.write v) (slot := 0) (by decide)).trans
      (congrArg Except.ok (decodeWrCtrl_no_start_bit (by simpa [Instr.wf] using hwf) false))
  | rdCtrl => exact decode_wordAccess false .read (slot := 0) (by decide)
  | rdStatus => exact decode_wordAccess false .read (slot := 1) (by decide)
  | wrStatus v => exact decode_wordAccess false (.write v) (slot := 1) (by decide)
  | rdResult => exact decode_wordAccess false .read (slot := 6) (by decide)
  | wrResult v => exact decode_wordAccess false (.write v) (slot := 6) (by decide)
  | wrArg r v => exact (decode_argAccess r (.write v)).trans (by cases r <;> rfl)
  | rdArg r => exact (decode_argAccess r .read).trans (by cases r <;> rfl)
  | reserved op => exact (decode_wordAccess false op (slot := 7) (by decide)).trans (by cases op <;> rfl)

/-- Settles O3: the elements and the accesses apart, each from its decoder's cases. -/
theorem encodeOfDecode : Obligations.EncodeOfDecode :=
  ⟨fun _ _ _ h => encode_of_decodeElement (decode_stream_iff.1 h), fun _ _ _ h => encode_of_decodeAccess h⟩

/-- Settles O4: the decoder run on each of the eight words. -/
theorem sampleWordsDecode : Obligations.SampleWordsDecode := by
  unfold Obligations.SampleWordsDecode
  decide

/-- Settles O9: the distance of an address from REG_BASE is what is compared, and it is the offset inside the window. -/
theorem windowAtRegBase : Obligations.WindowAtRegBase := by
  refine ⟨fun off w op => ?_, fun addr w op hfar => if_neg (not_lt.2 hfar)⟩
  have hdist : (Config.regBase + off.zeroExtend 32 - Config.regBase).toNat = off.toNat := by
    rw [BitVec.add_comm, BitVec.add_sub_cancel, BitVec.zeroExtend, BitVec.toNat_setWidth]
    omega
  rw [Access.ofAddress, hdist, if_pos (show off.toNat < 32 by omega), BitVec.ofNat_toNat, BitVec.setWidth_eq]

end Sys2Proof.Proofs

/-! ### Matches of different lengths, and what a selection looks at (R110, R111, R125) -/

namespace Sys2Proof.Proofs

open Sys2Proof Sys2Proof.Machine Sys2Proof.Stated

section
variable {inp inp' : Nat → Byte} {n off len len' d : Nat}

theorem candidate_mono (h : candidate inp off len d) (hlen : len' ≤ len) : candidate inp off len' d :=
  fun i hi => h i (hi.trans_le hlen)

/-- What a found distance is, from the nearest match of R106. -/
theorem find_pos_spec (h : 0 < find inp n off len) :
    off + len ≤ n ∧ Config.minSearchDistance ≤ find inp n off len ∧ find inp n off len ≤ Config.maxDistance ∧
      find inp n off len ≤ off ∧ candidate inp off len (find inp n off len) := by
  have hroom := add_le_of_find_pos h
  obtain ⟨hmin, hmax, hoff, hcand, -⟩ := ((findGivesNearestMatch inp n off len).2 _ hroom h).1 rfl
  exact ⟨hroom, hmin, hmax, hoff, hcand⟩

/-- A match that find could give is no nearer than the one it gives. -/
theorem find_le_of_candidate (hroom : off + len ≤ n) (hmin : Config.minSearchDistance ≤ d)
    (hmax : d ≤ Config.maxDistance) (hoff : d ≤ off) (hcand : candidate inp off len d) :
    0 < find inp n off len ∧ find inp n off len ≤ d := by
  classical
  have hex : ∃ e, Config.minSearchDistance ≤ e ∧ candidate inp off len e := ⟨d, hmin, hcand⟩
  obtain ⟨hmin', hcand'⟩ := Nat.find_spec hex
  have hle : Nat.find hex ≤ d := Nat.find_min' hex ⟨hmin, hcand⟩
  have hpos : 0 < Nat.find hex := Nat.lt_of_lt_of_le (by decide) hmin'
  have hfind : find inp n off len = Nat.find hex :=
    ((findGivesNearestMatch inp n off len).2 _ hroom hpos).2
      ⟨hmin', hle.trans hmax, hle.trans hoff, hcand', fun e he hlt hc => Nat.find_min hex hlt ⟨he, hc⟩⟩
  rw [hfind]
  exact ⟨hpos, hle⟩

/-- A match at some length is one, at most as far, at every shorter length (R111). -/
theorem find_mono (hlen : len' ≤ len) (h : 0 < find inp n off len) :
    0 < find inp n off len' ∧ find inp n off len' ≤ find inp n off len := by
  obtain ⟨hroom, hmin, hmax, hoff, hcand⟩ := find_pos_spec h
  exact find_le_of_candidate ((Nat.add_le_add_left hlen off).trans hroom) hmin hmax hoff (candidate_mono hcand hlen)

theorem find_eq_zero_mono (hlen : len' ≤ len) (h : find inp n off len' = 0) : find inp n off len = 0 := by
  by_contra hne
  exact (find_mono hlen (Nat.pos_of_ne_zero hne)).1.ne' h

/-- Settles O11: a candidate at some length is one at every shorter length, and find gives the nearest. -/
theorem findMonotoneInLength : Obligations.FindMonotoneInLength :=
  fun _ _ _ _ _ hlen => ⟨find_mono hlen, find_eq_zero_mono hlen⟩

/-! #### The longest match -/

/-- The probes stop at the greatest length with a match: a shorter one has a match too (R125). -/
theorem lastSuccess_iff_longest :
    LastSuccess inp n off len ↔
      Config.minMatch ≤ len ∧ len ≤ Config.maxMatch ∧ 0 < find inp n off len ∧
        ∀ l : Nat, len < l → l ≤ Config.maxMatch → find inp n off l = 0 := by
  constructor
  · intro h
    refine ⟨h.minMatch_le, h.le_maxMatch, h.find_pos, fun l hlt hle => ?_⟩
    have hfail : find inp n off (len + 1) = 0 := h.stops.resolve_left (hlt.trans_le hle).ne
    exact find_eq_zero_mono hlt hfail
  · rintro ⟨hmin, hmax, hpos, hlongest⟩
    refine ⟨hmin, hmax, fun l _ hle => (find_mono hle hpos).1, hmax.eq_or_lt.imp_right fun hlt => ?_⟩
    exact hlongest (len + 1) (Nat.lt_succ_self len) hlt

/-- The token of a selection decides the cursor after it (R123, R124). -/
theorem select_snd (inp : Nat → Byte) (n off : Nat) :
    (select inp n off).2 = off + (select inp n off).1.span := by
  rcases select_cases inp n off with ⟨-, hsel⟩ | ⟨last, -, hsel⟩ <;> rw [hsel] <;> rfl

theorem select_eq_iff_fst (tok : Token) :
    select inp n off = (tok, off + tok.span) ↔ (select inp n off).1 = tok := by
  rw [Prod.ext_iff, select_snd]
  exact ⟨And.left, fun h => ⟨h, by rw [h]⟩⟩

/-- Settles O15: the last success of the probes is the longest match. -/
theorem selectIsLongestMatch : Obligations.SelectIsLongestMatch := by
  intro inp n off length distance _
  refine (select_eq_iff_fst (.backRef length distance)).trans ?_
  rw [select_eq_backRef_iff, lastSuccess_iff_longest]
  constructor
  · rintro ⟨⟨hmin, hmax, hpos, hlongest⟩, rfl⟩
    exact ⟨hmin, hmax, hpos, rfl, hlongest⟩
  · rintro ⟨hmin, hmax, hpos, rfl, hlongest⟩
    exact ⟨⟨hmin, hmax, hpos, hlongest⟩, rfl⟩

/-! #### The input alone decides -/

theorem scanFrom_congr (h : ∀ i < n, inp i = inp' i) (hroom : off + len ≤ n) (k d : Nat) :
    scanFrom inp off len k d = scanFrom inp' off len k d := by
  induction k generalizing d with
  | zero => rfl
  | succ k ih =>
    rw [scanFrom, scanFrom, runsEqual_congr h (Nat.sub_le off d) hroom, ih]

theorem find_congr (h : ∀ i < n, inp i = inp' i) (off len : Nat) : find inp n off len = find inp' n off len := by
  rcases Nat.lt_or_ge n (off + len) with hover | hroom
  · rw [find_no_room inp n off len hover, find_no_room inp' n off len hover]
  · rw [find_room inp n off len hroom, find_room inp' n off len hroom, scanFrom_congr h hroom]

theorem probeLengths_congr (h : ∀ i < n, inp i = inp' i) (k len : Nat) (best : Nat × Nat) :
    probeLengths inp n off k len best = probeLengths inp' n off k len best := by
  induction k generalizing len best with
  | zero => rfl
  | succ k ih => rw [probeLengths_succ, probeLengths_succ, find_congr h, ih]

theorem select_congr (h : ∀ i < n, inp i = inp' i) (hoff : off < n) : select inp n off = select inp' n off := by
  rw [select, select, probeLengths_congr h, h off hoff]

theorem tokensFrom_succ (inp : Nat → Byte) (n k off : Nat) :
    tokensFrom inp n (k + 1) off =
      if off < n then (select inp n off).1 :: tokensFrom inp n k (select inp n off).2 else [] := rfl

end

/-- Settles O12: every probe of the finder reads both runs inside the input, and the literal is In[off]. -/
theorem selectReadsOnlyInput : Obligations.SelectReadsOnlyInput := fun _ _ _ _ hoff h => select_congr h hoff

/-! #### What is selected is well formed -/

theorem emittable_backRef_iff (l d : Nat) :
    (Token.backRef l d).emittable = true ↔ (3 ≤ l ∧ l ≤ 18) ∧ 8 ≤ d ∧ d ≤ 4096 := by
  simp only [Token.emittable, Bool.and_eq_true, decide_eq_true_iff, and_assoc]
  rfl

/-- The encoder's own range (R79): the lengths are those probed, the distances those scanned. -/
theorem select_emittable (inp : Nat → Byte) (n off : Nat) : (select inp n off).1.emittable = true := by
  rcases select_cases inp n off with ⟨-, hsel⟩ | ⟨last, hlast, hsel⟩
  · rw [hsel]
    rfl
  · obtain ⟨-, hmin, hmax, -, -⟩ := find_pos_spec hlast.find_pos
    rw [hsel, emittable_backRef_iff]
    exact ⟨⟨hlast.minMatch_le, hlast.le_maxMatch⟩, hmin, hmax⟩

theorem wf_of_emittable {tok : Token} (h : tok.emittable = true) : tok.wf = true := by
  cases tok with
  | literal b => rfl
  | backRef l d =>
    obtain ⟨hlen, hmin, hmax⟩ := (emittable_backRef_iff l d).1 h
    exact (wf_backRef_iff l d).2 ⟨hlen, by omega, hmax⟩

theorem wf_toInstr (tok : Token) : tok.toInstr.wf = tok.wf := by cases tok <;> rfl

theorem toInstr_eq_backRef {tok : Token} {l d : Nat} (h : tok.toInstr = .backRef l d) : tok = .backRef l d := by
  cases tok with
  | literal b => cases h
  | backRef l' d' => cases h; rfl

/-- Settles O40: the header's length is valid past VALIDATE, and the selected token is in the encoder's range. -/
theorem engineEmitsWellFormed : Obligations.EngineEmitsWellFormed := by
  intro s i hinv helement
  rw [State.engineElement] at helement
  cases hphase : s.phase with
  | idle => simp [hphase] at helement
  | validate => simp [hphase] at helement
  | header =>
    obtain rfl : Instr.header s.n = i := by simpa [hphase] using helement
    have hargs := hinv.argsValid (by rw [State.pastValidate, hphase])
    exact ⟨decide_eq_true (State.n_le_of_argsValid hargs), fun l d h => Instr.noConfusion h⟩
  | token =>
    obtain ⟨-, rfl⟩ : s.off ≠ s.n ∧ s.selected.toInstr = i := by simpa [hphase] using helement
    have hemit : s.selected.emittable = true := select_emittable _ _ _
    refine ⟨(wf_toInstr _).trans (wf_of_emittable hemit), fun l d h => ?_⟩
    rw [toInstr_eq_backRef h, emittable_backRef_iff] at hemit
    exact hemit.2.1
  | pad =>
    obtain rfl : Instr.pad = i := by simpa [hphase] using helement
    exact ⟨rfl, fun l d h => Instr.noConfusion h⟩

end Sys2Proof.Proofs

/-! ### The tokens of an input (R12, R123, R174) -/

namespace Sys2Proof.Proofs

open Sys2Proof Sys2Proof.Machine Sys2Proof.Stated

theorem byteAt_eq_getElem {bytes : List Byte} {i : Nat} (h : i < bytes.length) : byteAt bytes i = bytes[i] := by
  rw [byteAt, List.getD_eq_getElem _ _ h]

/-- One byte more of the input. -/
theorem take_append_byteAt {bytes : List Byte} {off : Nat} (h : off < bytes.length) :
    bytes.take off ++ [byteAt bytes off] = bytes.take (off + 1) := by
  rw [byteAt_eq_getElem h, List.take_concat_get' bytes off h]

/-- A match copies the input on where its bytes repeat those `d` before (R105), also past the bytes just copied. -/
theorem copyBack_take {bytes : List Byte} {k d off : Nat} (hd : d ≤ off) (hpos : 0 < d) (hroom : off + k ≤ bytes.length)
    (hcand : candidate (byteAt bytes) off k d) : copyBack k d (bytes.take off) = bytes.take (off + k) := by
  induction k generalizing off with
  | zero => rfl
  | succ k ih =>
    have hlen : (bytes.take off).length = off := List.length_take_of_le (by omega)
    have hrepeats : byteAt bytes (off - d) = byteAt bytes off := hcand 0 (Nat.succ_pos k)
    have hcopied : (bytes.take off).getD (off - d) 0 = byteAt bytes off := by
      rw [← hrepeats, byteAt, List.getD_eq_getElem?_getD, List.getD_eq_getElem?_getD,
        List.getElem?_take_of_lt (by omega)]
    have hrest : candidate (byteAt bytes) (off + 1) k d := fun i hi => by
      have hnext := hcand (i + 1) (Nat.succ_lt_succ hi)
      rwa [← Nat.add_assoc, Nat.add_right_comm, ← Nat.sub_add_comm hd, ← Nat.add_assoc, Nat.add_right_comm off] at hnext
    rw [copyBack, hlen, hcopied, take_append_byteAt (by omega), ih (by omega) (by omega) hrest, Nat.add_assoc,
      Nat.add_comm 1 k]

/-- A selected token stands for the input from the cursor up to the cursor after it. -/
theorem expand_select {bytes : List Byte} {off : Nat} (h : off < bytes.length) (ts : List Token) :
    expand ((select (byteAt bytes) bytes.length off).1 :: ts) (bytes.take off) =
      expand ts (bytes.take (select (byteAt bytes) bytes.length off).2) := by
  rcases select_cases (byteAt bytes) bytes.length off with ⟨-, hsel⟩ | ⟨last, hlast, hsel⟩
  · rw [hsel, expand, take_append_byteAt h]
  · obtain ⟨hroom, -, -, hd, hcand⟩ := find_pos_spec hlast.find_pos
    rw [hsel, expand, copyBack_take hd hlast.find_pos hroom hcand]

/-- The tokens from an offset on stand for the rest of the input. -/
theorem expand_tokensFrom {bytes : List Byte} {k off : Nat} (hk : bytes.length ≤ off + k) (hoff : off ≤ bytes.length) :
    expand (tokensFrom (byteAt bytes) bytes.length k off) (bytes.take off) = bytes := by
  induction k generalizing off with
  | zero => exact List.take_of_length_le hk
  | succ k ih =>
    rw [tokensFrom_succ]
    split
    · next hlt =>
      obtain ⟨-, -, hnext, hle⟩ := selectAdvances (byteAt bytes) bytes.length off hlt
      rw [expand_select hlt, ih (by omega) hle]
    · next hend => exact List.take_of_length_le (not_lt.1 hend)

/-- Settles O16: each token extends the bytes rebuilt so far by what it stands for. -/
theorem tokensRebuildInput : Obligations.TokensRebuildInput :=
  fun bytes => expand_tokensFrom (off := 0) (by rw [Nat.zero_add]) (Nat.zero_le _)

end Sys2Proof.Proofs

/-! ### What a stream element leaves behind (R141 to R147, R173, R176) -/

namespace Sys2Proof.Proofs

open Sys2Proof Sys2Proof.Machine Sys2Proof.Stated

/-- The state after group open, the token's bytes and group close, before the input cursor moves (R147). -/
def emitted (tok : Token) (s : State) : State := closed (s.off + tok.span) (tokenPut tok (opened s))

theorem emitted_repacked (tok : Token) (s : State) : Repacked s (emitted tok s) :=
  (opened_repacked s).trans ((tokenPut_repacked tok _).trans (closed_repacked _ _))

section
variable {s t : State} {tok : Token}

theorem exec_flag (f : Byte) (s : State) : exec (.flag f) s = execFlag f s := rfl

/-- With no group open FLAG is the group open of a token (R141). -/
theorem execFlag_reserves (f : Byte) (h : s.count = 0) : execFlag f s = s.openGroup.outcome := by
  rw [execFlag, State.openGroup, if_pos h, if_pos h]

theorem execFlag_writes_back (f : Byte) (h : s.count ≠ 0) : execFlag f s = (s.writeFlag f).outcome := by
  rw [execFlag, if_neg h]

theorem openGroup_eq_opened (h : s.openGroup = .ok t) : (s.count = 0 → s.cursor + 1 ≤ s.cap) ∧ t = opened s := by
  rcases State.openGroup_eq_ok.1 h with ⟨hcount, hres⟩ | ⟨hcount, rfl⟩
  · obtain ⟨hroom, -, rfl⟩ := State.reserveFlag_eq_ok.1 hres
    exact ⟨fun _ => hroom, (opened_of_count_eq_zero hcount).symm⟩
  · exact ⟨fun h0 => absurd h0 hcount, (opened_of_count_ne_zero hcount).symm⟩

theorem openGroup_raise_eq {j : JobError} (h : s.openGroup = .raise j t) :
    j = .outputExhausted ∧ t = { s with flagPos := s.cursor } :=
  (State.reserveFlag_eq_raise.1 (State.openGroup_eq_raise.1 h).2).2

theorem closeGroup_eq_closed {next : Nat} (h : s.closeGroup next = .ok t) : t = closed next s := by
  rcases State.closeGroup_eq_ok.1 h with ⟨hclose, hwrite⟩ | ⟨hopen, rfl⟩
  · obtain ⟨-, rfl⟩ := State.writeFlag_eq_ok.1 hwrite
    exact (if_pos hclose).symm
  · exact (if_neg hopen).symm

/-- What a token's step can do: emit the whole token, or end the job before or after the reservation (R150). -/
theorem exec_toInstr_next (h : exec tok.toInstr s = .next t) :
    ((opened s).cursor + tok.bytes.length ≤ s.cap ∧
        t = { emitted tok s with off := s.off + tok.span }) ∨
      t = exhausted { s with flagPos := s.cursor } ∨
      ((s.count = 0 → s.cursor + 1 ≤ s.cap) ∧ t = exhausted (opened s)) := by
  rw [exec_toInstr] at h
  rcases Effect.outcome_eq_next.1 h with hgo | ⟨j, w, herr, rfl⟩
  · obtain ⟨w, hemit, rfl⟩ := State.emitToken_eq_ok.1 hgo
    obtain ⟨u, v, hopen, hput, hclose⟩ := State.emit_eq_ok.1 hemit
    obtain ⟨-, rfl⟩ := openGroup_eq_opened hopen
    obtain ⟨hroom, -, rfl⟩ := State.putToken_eq_ok.1 hput
    rw [opened_cap] at hroom
    rw [closeGroup_eq_closed hclose]
    exact .inl ⟨hroom, rfl⟩
  · rcases State.emit_eq_raise.1 (State.emitToken_eq_raise.1 herr) with hopen | ⟨u, hopen, hput⟩
    · obtain ⟨rfl, rfl⟩ := openGroup_raise_eq hopen
      exact .inr (.inl rfl)
    · obtain ⟨hroom, rfl⟩ := openGroup_eq_opened hopen
      obtain ⟨-, rfl, rfl⟩ := State.putToken_eq_raise.1 hput
      exact .inr (.inr ⟨hroom, rfl⟩)

theorem execHeader_next {n : Nat} (h : execHeader n s = .next t) :
    (s.cursor + 4 ≤ s.cap ∧
        t = { s with
          mem := s.mem.writeBytes (s.outAt s.cursor) (headerBytes n), cursor := s.cursor + 4, off := 0, count := 0,
          flagVal := 0, phase := .token }) ∨
      t = exhausted s := by
  rcases Effect.outcome_eq_next.1 h with hgo | ⟨j, w, herr, rfl⟩
  · obtain ⟨u, happ, hu⟩ := Effect.andThen_eq_ok.1 hgo
    obtain ⟨hroom, -, rfl⟩ := State.append_eq_ok.1 happ
    exact .inl ⟨hroom, (Effect.ok.inj hu).symm⟩
  · rcases Effect.andThen_eq_raise.1 herr with happ | ⟨u, -, hu⟩
    · obtain ⟨-, rfl, rfl⟩ := State.append_eq_raise.1 happ
      exact .inr rfl
    · cases hu

theorem execPad_next (h : execPad s = .next t) :
    (s.cursor % Config.padMultiple = 0 ∧ t = s.complete) ∨
      (s.cursor % Config.padMultiple ≠ 0 ∧ s.cursor + 1 ≤ s.cap ∧
        t = { s with mem := s.mem.write (s.outAt s.cursor) 0, cursor := s.cursor + 1 }) ∨
      t = exhausted s := by
  by_cases halign : s.cursor % Config.padMultiple = 0
  · rw [execPad_aligned halign] at h
    exact .inl ⟨halign, (Host.Outcome.next.inj h).symm⟩
  · rw [execPad_unaligned halign] at h
    rcases Effect.outcome_eq_next.1 h with hgo | ⟨j, w, herr, rfl⟩
    · obtain ⟨hroom, -, rfl⟩ := State.append_eq_ok.1 hgo
      exact .inr (.inl ⟨halign, hroom, rfl⟩)
    · obtain ⟨-, rfl, rfl⟩ := State.append_eq_raise.1 herr
      exact .inr (.inr rfl)

theorem execFlag_next {f : Byte} (h : execFlag f s = .next t) :
    t = opened s ∨ t = exhausted { s with flagPos := s.cursor } ∨
      (s.count ≠ 0 ∧ t = { s with mem := s.mem.write (s.outAt s.flagPos) f, count := 0, flagVal := 0 }) := by
  by_cases hcount : s.count = 0
  · rw [execFlag_reserves f hcount] at h
    rcases Effect.outcome_eq_next.1 h with hgo | ⟨j, w, herr, rfl⟩
    · exact .inl (openGroup_eq_opened hgo).2
    · obtain ⟨rfl, rfl⟩ := openGroup_raise_eq herr
      exact .inr (.inl rfl)
  · rw [execFlag_writes_back f hcount] at h
    rcases Effect.outcome_eq_next.1 h with hgo | ⟨j, w, herr, rfl⟩
    · exact .inr (.inr ⟨hcount, (State.writeFlag_eq_ok.1 hgo).2⟩)
    · exact absurd herr (State.writeFlag_ne_raise _ _ _ _)

end

/-- Settles O19: with no group open FLAG is group open, which the capacity decides. -/
theorem flagReserves : Obligations.FlagReserves := by
  intro f s hcount
  rw [exec_flag, execFlag_reserves f hcount]
  refine ⟨fun hroom hfits => ?_, fun hover => ?_⟩
  · rw [openGroup_fits hfits fun _ => hroom, Effect.outcome_ok]
  · rw [openGroup_exhausted hcount hover, Effect.outcome_raise, terminate_outputExhausted]

/-- Settles O20: the reserved byte lies in the output region, so its address exists. -/
theorem flagWritesBack : Obligations.FlagWritesBack := by
  intro f s hcount hflag hfits
  have hspace : s.outAt s.flagPos < Config.spaceSize :=
    (Nat.add_lt_add_left hflag _).trans_le ((State.outRegion_fits s).1 hfits)
  rw [exec_flag, execFlag_writes_back f hcount.ne', State.writeFlag_eq_ok.2 ⟨hspace, rfl⟩, Effect.outcome_ok]

end Sys2Proof.Proofs

/-! ### What a register access does (R190 to R200) -/

namespace Sys2Proof.Proofs

open Sys2Proof Sys2Proof.Machine Sys2Proof.Stated

/-- What a host write of a register can do: nothing, start a job, or store an argument of an idle block. -/
inductive WriteEffect (i : Instr) (s : State) : State → Prop
  | ignored : WriteEffect i s s
  | starts (v : Word) (hcode : ∃ b, encode i = wordAccess b 0x00 (.write v)) (hbit : v.getLsbD 0 = true)
      (hbusy : s.busy = false) : WriteEffect i s s.startJob
  | stores (r : ArgReg) (v : Word) (hbusy : s.busy = false) : WriteEffect i s (s.setArg r v)

section
variable {i : Instr}

theorem exec_hostRead (h : isHostRead i = true) (s : State) : ∃ v, exec i s = .next (s.returnRead v) := by
  cases i with
  | rdCtrl => exact ⟨_, exec_rdCtrl s⟩
  | rdStatus => exact ⟨_, exec_rdStatus s⟩
  | rdResult => exact ⟨_, exec_rdResult s⟩
  | rdArg r => exact ⟨_, exec_rdArg r s⟩
  | reserved op =>
    cases op with
    | read => exact ⟨_, exec_reserved_read s⟩
    | write v => cases h
  | _ => cases h

theorem writeCtrl_effect {v : Word} (hcode : ∃ b, encode i = wordAccess b 0x00 (.write v)) (s : State) :
    WriteEffect i s (s.writeCtrl v) := by
  cases hbusy : s.busy with
  | true => rw [writeCtrl_while_busy hbusy]; exact .ignored
  | false =>
    cases hbit : v.getLsbD 0 with
    | false => rw [writeCtrl_without_start_bit hbit]; exact .ignored
    | true => rw [writeCtrl_starts hbit hbusy]; exact .starts v hcode hbit hbusy

theorem writeArg_effect (r : ArgReg) (v : Word) (s : State) : WriteEffect i s (s.writeArg r v) := by
  cases hbusy : s.busy with
  | true => rw [writeArg_while_busy r hbusy]; exact .ignored
  | false => rw [writeArg_while_idle r hbusy]; exact .stores r v hbusy

theorem exec_hostWrite (helement : isElement i = false) (hread : isHostRead i = false) (s : State) :
    ∃ t, exec i s = .next t ∧ WriteEffect i s t := by
  cases i with
  | wrCtrlStart v => exact ⟨_, exec_wrCtrlStart v s, writeCtrl_effect ⟨_, rfl⟩ s⟩
  | wrCtrlBusy v => exact ⟨_, exec_wrCtrlBusy v s, writeCtrl_effect ⟨_, rfl⟩ s⟩
  | wrCtrlNoStart v => exact ⟨_, exec_wrCtrlNoStart v s, writeCtrl_effect ⟨_, rfl⟩ s⟩
  | wrStatus v => exact ⟨_, exec_wrStatus v s, .ignored⟩
  | wrResult v => exact ⟨_, exec_wrResult v s, .ignored⟩
  | wrArg r v => exact ⟨_, exec_wrArg r v s, writeArg_effect r v s⟩
  | reserved op =>
    cases op with
    | read => cases hread
    | write v => exact ⟨_, exec_reserved_write v s, .ignored⟩
  | rdCtrl => cases hread
  | rdStatus => cases hread
  | rdResult => cases hread
  | rdArg r => cases hread
  | _ => cases helement

/-- No access to the register window is a stream element. -/
theorem isElement_of_decodeAccess {busy : Bool} {a : Access} (h : decodeAccess busy a = .ok i) :
    isElement i = false := by
  obtain ⟨-, b, hencode⟩ := encode_of_decodeAccess h
  cases i with
  | header n => cases hencode
  | flag f => cases hencode
  | lit b => cases hencode
  | backRef l d => cases hencode
  | pad => cases hencode
  | _ => rfl

end

end Sys2Proof.Proofs

/-! ### What each shape of instruction leaves unchanged -/

namespace Sys2Proof.Proofs

open Sys2Proof Sys2Proof.Machine Sys2Proof.Stated

section
variable {s t : State} {tok : Token}

/-! #### Memory -/

theorem opened_flagPos (s : State) : (opened s).flagPos = groupFlagPos s := by
  unfold opened groupFlagPos
  split <;> rfl

theorem opened_cursor (s : State) : (opened s).cursor = s.cursor + openSize s := by
  unfold opened openSize
  split <;> rfl

/-- Group open stores nothing but the group's flag byte. -/
theorem opened_read {a : Nat} (h : a ≠ s.outAt (groupFlagPos s)) : (opened s).mem.read a = s.mem.read a := by
  unfold groupFlagPos at h
  unfold opened
  split
  · next hcount =>
    rw [if_pos hcount] at h
    exact Memory.read_write_other h.symm _ _
  · rfl

/-- Group close stores nothing but the group's flag byte. -/
theorem closed_read {next a : Nat} (h : a ≠ s.outAt s.flagPos) : (closed next s).mem.read a = s.mem.read a := by
  unfold closed
  split
  · exact Memory.read_write_other h.symm _ _
  · rfl

/-- A token's step stores its bytes behind the reservation, and its group's flag byte. -/
theorem exec_toInstr_frame (h : exec tok.toInstr s = .next t) {a : Nat}
    (hbytes : a < s.outAt s.cursor ∨ s.outAt s.cursor + (openSize s + tok.bytes.length) ≤ a)
    (hflag : a ≠ s.outAt (groupFlagPos s)) : t.mem.read a = s.mem.read a := by
  rcases exec_toInstr_next h with ⟨-, rfl⟩ | rfl | ⟨-, rfl⟩
  · have hpos : a ≠ (tokenPut tok (opened s)).outAt (tokenPut tok (opened s)).flagPos := by
      have hput : (tokenPut tok (opened s)).outAt (opened s).flagPos = (opened s).outAt (opened s).flagPos := rfl
      rwa [← opened_flagPos, ← opened_outAt, ← hput] at hflag
    have hoff : a < (opened s).outAt (opened s).cursor ∨
        (opened s).outAt (opened s).cursor + tok.bytes.length ≤ a := by
      rw [opened_outAt, opened_cursor, outAt_add]
      omega
    calc (emitted tok s).mem.read a
        = (tokenPut tok (opened s)).mem.read a := closed_read hpos
      _ = (opened s).mem.read a := Memory.read_writeBytes_outside hoff _
      _ = s.mem.read a := opened_read hflag
  · rfl
  · exact opened_read hflag

end

/-- Settles O33: the bytes appended and the flag byte are all that an element stores; an access stores nothing. -/
theorem memoryFrame : Obligations.MemoryFrame := by
  intro i s t hexec a ha
  have haccess (helement : isElement i = false) : t.mem.read a = s.mem.read a := by
    cases hread : isHostRead i with
    | true =>
      obtain ⟨v, hv⟩ := exec_hostRead hread s
      obtain rfl := Host.Outcome.next.inj (hexec.symm.trans hv)
      rfl
    | false =>
      obtain ⟨u, hu, heffect⟩ := exec_hostWrite helement hread s
      obtain rfl := Host.Outcome.next.inj (hexec.symm.trans hu)
      cases heffect with
      | ignored => rfl
      | starts => rfl
      | stores r => cases r <;> rfl
  cases i with
  | header n =>
    simp only [storesAt, Bool.and_eq_false_iff, decide_eq_false_iff_not] at ha
    rcases execHeader_next hexec with ⟨-, rfl⟩ | rfl
    · refine Memory.read_writeBytes_outside ?_ _
      simp only [headerBytes, List.length_cons, List.length_nil]
      omega
    · rfl
  | flag f =>
    have hne : a ≠ s.outAt (groupFlagPos s) := of_decide_eq_false ha
    rcases execFlag_next hexec with rfl | rfl | ⟨hcount, rfl⟩
    · exact opened_read hne
    · rfl
    · rw [groupFlagPos, if_neg hcount] at hne
      exact Memory.read_write_other hne.symm _ _
  | lit b =>
    simp only [storesAt, Bool.or_eq_false_iff, Bool.and_eq_false_iff, decide_eq_false_iff_not] at ha
    exact exec_toInstr_frame (tok := .literal b) hexec (by simp only [Token.bytes, List.length_singleton]; omega) ha.2
  | backRef l d =>
    simp only [storesAt, Bool.or_eq_false_iff, Bool.and_eq_false_iff, decide_eq_false_iff_not] at ha
    exact exec_toInstr_frame (tok := .backRef l d) hexec
      (by simp only [Token.bytes, List.length_cons, List.length_nil]; omega) ha.2
  | pad =>
    simp only [storesAt, Bool.and_eq_false_iff, decide_eq_false_iff_not] at ha
    rcases execPad_next hexec with ⟨-, rfl⟩ | ⟨hpad, -, rfl⟩ | rfl
    · rfl
    · exact Memory.read_write_other (fun h => ha.elim (fun hna => hna hpad) fun hne => hne h.symm) _ _
    · rfl
  | _ => exact haccess rfl

/-! #### Registers -/

/-- What a stream element leaves of a state: it goes on with another writer state, input cursor and, for the header,
phase; it ends the job with OutputExhausted; or it completes it (R173, R174, R176, R216). -/
inductive ElementEffect (i : Instr) (s : State) : State → Prop
  | goesOn (u : State) (off : Nat) (hpack : Repacked s u) : ElementEffect i s { u with off := off }
  | header (n : Nat) (u : State) (hi : i = .header n) (hpack : Repacked s u) :
      ElementEffect i s { u with off := 0, phase := .token }
  | ends (u : State) (hpack : Repacked s u) : ElementEffect i s (exhausted u)
  | completes (hi : i = .pad) : ElementEffect i s s.complete

theorem exec_toInstr_effect {s t : State} {tok : Token} (h : exec tok.toInstr s = .next t) :
    ElementEffect tok.toInstr s t := by
  rcases exec_toInstr_next h with ⟨-, rfl⟩ | rfl | ⟨-, rfl⟩
  · exact .goesOn _ _ (emitted_repacked tok s)
  · exact .ends _ ⟨_, _, _, _, _, rfl⟩
  · exact .ends _ (opened_repacked s)

theorem exec_element {i : Instr} {s t : State} (helement : isElement i = true) (h : exec i s = .next t) :
    ElementEffect i s t := by
  cases i with
  | header n =>
    rcases execHeader_next h with ⟨-, rfl⟩ | rfl
    · exact .header n
        { s with
          mem := s.mem.writeBytes (s.outAt s.cursor) (headerBytes n), cursor := s.cursor + 4, count := 0, flagVal := 0 }
        rfl ⟨_, _, _, _, _, rfl⟩
    · exact .ends s (.refl s)
  | flag f =>
    rcases execFlag_next h with rfl | rfl | ⟨-, rfl⟩
    · exact .goesOn (opened s) _ (opened_repacked s)
    · exact .ends _ ⟨_, _, _, _, _, rfl⟩
    · exact .goesOn { s with mem := s.mem.write (s.outAt s.flagPos) f, count := 0, flagVal := 0 } s.off
        ⟨_, _, _, _, _, rfl⟩
  | lit b => exact exec_toInstr_effect (tok := .literal b) h
  | backRef l d => exact exec_toInstr_effect (tok := .backRef l d) h
  | pad =>
    rcases execPad_next h with ⟨-, rfl⟩ | ⟨-, -, rfl⟩ | rfl
    · exact .completes rfl
    · exact .goesOn { s with mem := s.mem.write (s.outAt s.cursor) 0, cursor := s.cursor + 1 } s.off
        ⟨_, _, _, _, _, rfl⟩
    · exact .ends s (.refl s)
  | _ => cases helement

theorem isHostRead_of_isElement {i : Instr} (h : isElement i = true) : isHostRead i = false := by
  cases i with
  | reserved op => cases h
  | rdCtrl => cases h
  | rdStatus => cases h
  | rdResult => cases h
  | rdArg r => cases h
  | _ => rfl

/-- Settles O34: by the shape of the instruction, from what an element, a read and a write can do. -/
theorem registerFrame : Obligations.RegisterFrame := by
  intro i s t hexec
  cases helement : isElement i with
  | true =>
    rw [isHostRead_of_isElement helement]
    cases exec_element helement hexec with
    | goesOn u off hpack =>
      obtain ⟨_, _, _, _, _, rfl⟩ := hpack
      simp
    | header n u hi hpack =>
      obtain ⟨_, _, _, _, _, rfl⟩ := hpack
      simp [hi]
    | ends u hpack =>
      obtain ⟨_, _, _, _, _, rfl⟩ := hpack
      simp [exhausted]
    | completes hi => simp [hi]
  | false =>
    cases hread : isHostRead i with
    | true =>
      obtain ⟨v, hv⟩ := exec_hostRead hread s
      obtain rfl := Host.Outcome.next.inj (hexec.symm.trans hv)
      simp [State.returnRead]
    | false =>
      obtain ⟨u, hu, heffect⟩ := exec_hostWrite helement hread s
      obtain rfl := Host.Outcome.next.inj (hexec.symm.trans hu)
      cases heffect with
      | ignored => simp
      | starts => simp
      | stores r => cases r <;> simp [State.setArg]

end Sys2Proof.Proofs

/-! ### What the host's step can do (R82, R190, R230, R234, R235) -/

namespace Sys2Proof.Proofs

open Sys2Proof Sys2Proof.Machine Sys2Proof.Stated

/-- What a host step can do to the state in which its turn has been used up. -/
inductive HostMove (s : State) : State → Prop
  | looks (rdata : Word) (ops : List HostOp) (ctr : Nat) :
      HostMove s { s with rdata := rdata, hostOps := ops, freeCtr := ctr }
  | starts (v : Word) (rest : List HostOp) (hnext : s.hostOps = .access ⟨0x00, 4, .write v⟩ :: rest)
      (hbit : v.getLsbD 0 = true) (hbusy : s.busy = false) : HostMove s (State.startJob { s with hostOps := rest })
  | stores (r : ArgReg) (v : Word) (rest : List HostOp) (hbusy : s.busy = false) :
      HostMove s (State.setArg { s with hostOps := rest } r v)
  | writes (a : Word) (v : Byte) (rest : List HostOp) (hregion : s.busy = true → inJobRegion s a.toNat = false) :
      HostMove s { s with mem := s.mem.write a.toNat v, hostOps := rest }
  | resets (rest : List HostOp) (hnext : s.hostOps = .resetBlock :: rest) :
      HostMove s { s.resetBlock with hostOps := rest }

section
variable {s t : State} {a : Word} {v : Byte} {rest : List HostOp}

/-- An access that decodes never stops. -/
theorem hostAccess_next {acc : Access} {i : Instr} (hdec : decodeAccess s.busy acc = .ok i)
    (hops : s.hostOps = .access acc :: rest) :
    ∃ t, hostAccess acc { s with hostOps := rest } = .next t ∧ HostMove s t := by
  have helement := isElement_of_decodeAccess hdec
  rw [hostAccess_ok (s := { s with hostOps := rest }) hdec]
  cases hread : isHostRead i with
  | true =>
    obtain ⟨w, hw⟩ := exec_hostRead hread { s with hostOps := rest }
    exact ⟨_, hw, .looks w rest s.freeCtr⟩
  | false =>
    obtain ⟨t, ht, heffect⟩ := exec_hostWrite helement hread { s with hostOps := rest }
    refine ⟨t, ht, ?_⟩
    cases heffect with
    | ignored => exact .looks s.rdata rest s.freeCtr
    | starts w hcode hbit hbusy =>
      obtain ⟨-, b, hencode⟩ := encode_of_decodeAccess hdec
      obtain ⟨b', hcode⟩ := hcode
      obtain ⟨-, rfl⟩ := Fetched.bus.inj (hencode.symm.trans hcode)
      exact .starts w rest hops hbit hbusy
    | stores r w hbusy => exact .stores r w rest hbusy

theorem hostMemWrite_cases (a : Word) (v : Byte) (s : State) :
    (∃ r, hostMemWrite a v s = .refused r) ∨
      ((s.busy = true → inJobRegion s a.toNat = false) ∧
        hostMemWrite a v s = .next { s with mem := s.mem.write a.toNat v }) := by
  unfold hostMemWrite
  split
  · exact .inl ⟨_, rfl⟩
  · split
    · exact .inl ⟨_, rfl⟩
    · next hregion => exact .inr ⟨fun hbusy => by simpa [hbusy, inJobRegion] using hregion, rfl⟩

theorem hostMemRead_cases (a : Word) (s : State) :
    (∃ r, hostMemRead a s = .refused r) ∨
      ∃ rdata ctr, hostMemRead a s = .next { s with rdata := rdata, freeCtr := ctr } := by
  unfold hostMemRead
  split
  · exact .inl ⟨_, rfl⟩
  · split <;> exact .inr ⟨_, _, rfl⟩

theorem hostWaitDone_next (rest : List HostOp) (s : State) :
    ∃ ops, hostWaitDone rest s = .next { s with rdata := s.statusWord, hostOps := ops } := by
  unfold hostWaitDone
  split
  · exact ⟨rest, exec_rdStatus _⟩
  · exact ⟨s.hostOps, exec_rdStatus s⟩

/-- A host step is refused, or it makes a move. -/
theorem hostStep_cases (s : State) :
    (∃ r, hostStep s = .refused r) ∨ ∃ t, hostStep s = .next t ∧ HostMove s t := by
  unfold hostStep
  split
  · exact .inr ⟨s, rfl, .looks s.rdata s.hostOps s.freeCtr⟩
  · next acc rest hops =>
    cases hdec : decodeAccess s.busy acc with
    | ok i => exact .inr (hostAccess_next hdec hops)
    | error e => exact .inl ⟨_, hostAccess_error (s := { s with hostOps := rest }) hdec⟩
  · next rest hops =>
    obtain ⟨ops, hwait⟩ := hostWaitDone_next rest s
    exact .inr ⟨_, hwait, .looks s.statusWord ops s.freeCtr⟩
  · next a v rest hops =>
    exact (hostMemWrite_cases a v { s with hostOps := rest }).imp_right
      fun ⟨hregion, hwrite⟩ => ⟨_, hwrite, .writes a v rest hregion⟩
  · next a rest hops =>
    exact (hostMemRead_cases a { s with hostOps := rest }).imp_right
      fun ⟨rdata, ctr, hread⟩ => ⟨_, hread, .looks rdata rest ctr⟩
  · next rest hops => exact .inr ⟨_, rfl, .resets rest hops⟩

theorem hostStep_next (h : hostStep s = .next t) : HostMove s t := by
  rcases hostStep_cases s with ⟨r, hr⟩ | ⟨u, hu, hmove⟩
  · cases h.symm.trans hr
  · obtain rfl := Host.Outcome.next.inj (h.symm.trans hu)
    exact hmove

/-- A host step stops at most by a refusal. -/
theorem hostStep_ne_fault (s : State) (f : Fault) : hostStep s ≠ .fault f := by
  intro h
  rcases hostStep_cases s with ⟨r, hr⟩ | ⟨u, hu, -⟩
  · cases h.symm.trans hr
  · cases h.symm.trans hu

theorem step_memRead (hturn : s.turn = .host) (hops : s.hostOps = .memRead a :: rest) :
    step s = hostMemRead a { s with sched := s.sched.tail, hostOps := rest } := by
  rw [step_host hturn, hostStep, State.useTurn_hostOps, hops]
  rfl

theorem hostMemWrite_idle (hdev : s.isDevice a.toNat = false) (hbusy : s.busy = false) :
    hostMemWrite a v s = .next { s with mem := s.mem.write a.toNat v } := by
  simp [hostMemWrite, hdev, hbusy]

theorem hostMemRead_idle (hdev : s.isDevice a.toNat = false) (hbusy : s.busy = false) :
    hostMemRead a s = .next (s.returnRead ((s.mem.read a.toNat).zeroExtend 32)) := by
  simp [hostMemRead, hdev, hbusy]

theorem hostMemRead_output (hdev : s.isDevice a.toNat = false) (hbusy : s.busy = true)
    (hregion : s.outRegion.contains a.toNat = true) :
    hostMemRead a s =
      .next { s.returnRead ((Config.freeByte s.freeCtr).zeroExtend 32) with freeCtr := s.freeCtr + 1 } := by
  simp [hostMemRead, hdev, hbusy, hregion]

end

/-- Settles O41: a host move during a job looks, or writes outside both regions; the others need BUSY = 0 or a reset. -/
theorem hostCannotDisturbJob : Obligations.HostCannotDisturbJob := by
  intro s t hbusy hturn hnoReset hstep
  rw [step_host hturn] at hstep
  have hjob : sameJob s s.useTurn := ⟨rfl, rfl, rfl, rfl, rfl, rfl, rfl, rfl, rfl, rfl, rfl, rfl, rfl, rfl⟩
  cases hostStep_next hstep with
  | looks rdata ops ctr => exact ⟨hjob, fun _ _ => rfl⟩
  | starts v rest hnext hbit hidle => exact absurd hbusy (Bool.eq_false_iff.1 hidle)
  | stores r v rest hidle => exact absurd hbusy (Bool.eq_false_iff.1 hidle)
  | writes b v rest hregion =>
    refine ⟨hjob, fun a ha => Memory.read_write_other (fun heq => ?_) _ _⟩
    have houtside : inJobRegion s b.toNat = false := hregion hbusy
    rw [heq, ha] at houtside
    cases houtside
  | resets rest hnext => exact absurd hnext (hnoReset rest)

/-- Settles O46: with DONE = 1 the engine is idle, and of the host's moves only START and a reset touch the result. -/
theorem resultStaysUntilStart : Obligations.ResultStaysUntilStart := by
  intro s t hinv hdone hstep
  cases hturn : s.turn with
  | engine =>
    have hphase : s.phase = .idle := by
      by_contra hrun
      exact absurd hdone (Bool.eq_false_iff.1 (hinv.notBusyAndDone (hinv.busyIff.2 hrun)))
    rw [step_engine hturn, engineStep_idle (s := s.useTurn) hphase] at hstep
    obtain rfl := Host.Outcome.next.inj hstep
    exact .inl ⟨hdone, rfl, rfl⟩
  | host =>
    rw [step_host hturn] at hstep
    cases hostStep_next hstep with
    | looks rdata ops ctr => exact .inl ⟨hdone, rfl, rfl⟩
    | starts v rest hnext hbit hidle => exact .inr ⟨rfl, .inl ⟨v, rest, hnext, hbit⟩⟩
    | stores r v rest hidle => cases r <;> exact .inl ⟨hdone, rfl, rfl⟩
    | writes a v rest hregion => exact .inl ⟨hdone, rfl, rfl⟩
    | resets rest hnext => exact .inr ⟨rfl, .inr ⟨rest, hnext⟩⟩

/-- Settles O35: the decoder looks at BUSY alone of the state, which a used turn leaves. -/
theorem stepRunsHostAccess : Obligations.StepRunsHostAccess := by
  intro s a rest i hturn hops hdec
  rw [step_access hturn hops]
  exact hostAccess_ok hdec

/-- The element of a phase is what the engine's step runs in it (R172). -/
theorem engineStep_element {s : State} {i : Instr} (h : s.engineElement = some i) (hfits : s.inRegion.fits = true) :
    engineStep s = exec i s := by
  rw [State.engineElement] at h
  cases hphase : s.phase with
  | idle => simp [hphase] at h
  | validate => simp [hphase] at h
  | header =>
    obtain rfl : Instr.header s.n = i := by simpa [hphase] using h
    exact engineStep_header hphase
  | token =>
    obtain ⟨hend, rfl⟩ : s.off ≠ s.n ∧ s.selected.toInstr = i := by simpa [hphase] using h
    rw [engineStep_token hphase, tokenStep_emits hend hfits]
  | pad =>
    obtain rfl : Instr.pad = i := by simpa [hphase] using h
    exact engineStep_pad hphase

/-- Settles O36: the turn used up is no part of what selects the element. -/
theorem stepRunsEngineElement : Obligations.StepRunsEngineElement := by
  intro s i hturn helement hfits
  rw [step_engine hturn]
  exact engineStep_element (s := s.useTurn) helement hfits

/-- Settles O43: the read's own case of the host's memory read. -/
theorem outputReadDuringJobOpen : Obligations.OutputReadDuringJobOpen := by
  intro s a rest hturn hops hbusy hregion hdev
  rw [step_memRead hturn hops]
  exact hostMemRead_output (s := { s with sched := s.sched.tail, hostOps := rest }) hdev hbusy hregion

/-- Settles O45: off the devices and without a job the accesses are memory's own write and read. -/
theorem hostMemoryReadsBack : Obligations.HostMemoryReadsBack := by
  intro s a v rest hturn hbusy hdev
  refine ⟨fun hwf hops => ?_, fun hops => ?_⟩
  · rw [step_memWrite hturn hops]
    exact ⟨_, hostMemWrite_idle (s := { s with sched := s.sched.tail, hostOps := rest }) hdev hbusy, rfl,
      Memory.read_write_same hwf _ _, fun b hb => Memory.read_write_other hb.symm _ _⟩
  · rw [step_memRead hturn hops]
    exact hostMemRead_idle (s := { s with sched := s.sched.tail, hostOps := rest }) hdev hbusy

end Sys2Proof.Proofs

/-! ### Every step keeps the invariant (R24, R29, R31, R33, R164, R171) -/

namespace Sys2Proof.Proofs

open Sys2Proof Sys2Proof.Machine Sys2Proof.Stated

/-- The clauses of the invariant about STATUS and RESULT, which look at DONE, ERR and RESULT alone (R24, R29). -/
structure StatusLegal (s : State) : Prop where
  errOnlyDone : s.err ≠ 0 → s.done = true
  errLegal : s.err ≠ 0b11
  resultBeforeDone : s.done = false → s.result = 0
  resultSuccess : s.done = true → s.err = 0b00 → s.result.toNat % Config.padMultiple = 0 ∧ 4 ≤ s.result.toNat
  resultInvalid : s.done = true → s.err = JobError.invalidArgument.err → s.result = Config.errInvalidArgument
  resultExhausted : s.done = true → s.err = JobError.outputExhausted.err → s.result = Config.errOutputExhausted

/-- The clauses of the invariant about memory, the cursor and the open group. They hold inside a token's step too, where
the group may hold all its 8 tokens. -/
structure WriterLegal (s : State) : Prop where
  memWf : s.mem.wf
  cursorBound : s.cursor ≤ s.cap
  flagPosBound : 0 < s.count → s.flagPos < s.cursor
  flagBitsClear : unusedBitsClear s.flagVal s.count = true

section
variable {s t u : State}

/-! #### STATUS and RESULT -/

theorem statusLegal_of_inv (h : Inv s) : StatusLegal s :=
  ⟨h.errOnlyDone, h.errLegal, h.resultBeforeDone, h.resultSuccess, h.resultInvalid, h.resultExhausted⟩

theorem StatusLegal.congr (h : StatusLegal s) (hdone : t.done = s.done) (herr : t.err = s.err)
    (hresult : t.result = s.result) : StatusLegal t := by
  obtain ⟨h1, h2, h3, h4, h5, h6⟩ := h
  rw [← hdone, ← herr, ← hresult] at *
  exact ⟨h1, h2, h3, h4, h5, h6⟩

/-- After a START and after a reset (R36, R191). -/
theorem statusLegal_of_cleared (hdone : s.done = false) (herr : s.err = 0) (hresult : s.result = 0) :
    StatusLegal s := by
  constructor <;> simp [hdone, herr, hresult]

theorem statusLegal_terminate (e : JobError) (s : State) : StatusLegal (s.terminate e) := by
  cases e <;> constructor <;> simp [JobError.err, JobError.code]

/-- A whole number of words, at least the header, that fits the capacity (R29, R177). -/
theorem statusLegal_complete (halign : s.cursor % Config.padMultiple = 0) (hheader : 4 ≤ s.cursor)
    (hcap : s.cursor ≤ s.cap) : StatusLegal s.complete := by
  have hword : s.complete.result.toNat = s.cursor :=
    BitVec.toNat_ofNat _ _ |>.trans (Nat.mod_eq_of_lt (hcap.trans_lt s.outCap.isLt))
  constructor <;> simp [hword, halign, hheader, JobError.err, -State.complete_result]

/-! #### The writers -/

theorem writerLegal_of_inv (h : Inv s) (hrun : s.phase ≠ .idle) : WriterLegal s :=
  ⟨h.memWf, h.cursorBound hrun, h.flagPosBound hrun, h.flagBitsClear hrun⟩

theorem unusedBitsClear_iff (f : Byte) (t : Nat) : unusedBitsClear f t = true ↔ f.toNat % 2 ^ (8 - t) = 0 :=
  decide_eq_true_iff

theorem unusedBitsClear_zero (t : Nat) : unusedBitsClear 0 t = true :=
  (unusedBitsClear_iff 0 t).2 (Nat.zero_mod _)

theorem unusedBitsClear_succ {f : Byte} {t : Nat} (h : unusedBitsClear f t = true) :
    unusedBitsClear f (t + 1) = true := by
  rw [unusedBitsClear_iff] at *
  exact Nat.mod_eq_zero_of_dvd ((Nat.pow_dvd_pow 2 (by omega)).trans (Nat.dvd_of_mod_eq_zero h))

/-- The bit of a match lies above those of the tokens still to come (R143, R148). -/
theorem unusedBitsClear_setFlagBit {f : Byte} {t : Nat} (ht : t < 8) (h : unusedBitsClear f t = true) :
    unusedBitsClear (setFlagBit f t) (t + 1) = true := by
  have hbit : ((1 : Byte) <<< (7 - t)).toNat = 2 ^ (7 - t) := by
    interval_cases t <;> rfl
  have hclear := (unusedBitsClear_iff _ _).1 (unusedBitsClear_succ h)
  rw [unusedBitsClear_iff, setFlagBit, BitVec.toNat_or, hbit, Nat.or_mod_two_pow, hclear,
    show 8 - (t + 1) = 7 - t by omega, Nat.mod_self, Nat.zero_or]

theorem unusedBitsClear_markToken (tok : Token) (hcount : s.count < 8)
    (h : unusedBitsClear s.flagVal s.count = true) : unusedBitsClear (s.markToken tok) (s.count + 1) = true := by
  unfold State.markToken
  split
  · exact unusedBitsClear_setFlagBit hcount h
  · exact unusedBitsClear_succ h

/-- Every Out[j] of the capacity exists (R54). -/
theorem outAt_lt_of_fits (hfits : s.outRegion.fits = true) {j : Nat} (hj : j < s.cap) :
    s.outAt j < Config.spaceSize :=
  (Nat.add_lt_add_left hj _).trans_le ((State.outRegion_fits s).1 hfits)

theorem outAt_add_le_of_fits (hfits : s.outRegion.fits = true) {j k : Nat} (h : j + k ≤ s.cap) :
    s.outAt j + k ≤ Config.spaceSize := by
  rw [← outAt_add]
  exact (Nat.add_le_add_left h _).trans ((State.outRegion_fits s).1 hfits)

theorem writeBytes_out_wf (hmem : s.mem.wf) (hfits : s.outRegion.fits = true) {j : Nat} {bs : List Byte}
    (hj : j + bs.length ≤ s.cap) : (s.mem.writeBytes (s.outAt j) bs).wf :=
  Memory.writeBytes_wf hmem (outAt_add_le_of_fits hfits hj)

theorem opened_writerLegal (h : WriterLegal s) (hfits : s.outRegion.fits = true)
    (hroom : s.count = 0 → s.cursor + 1 ≤ s.cap) : WriterLegal (opened s) := by
  by_cases hcount : s.count = 0
  · rw [opened_of_count_eq_zero hcount]
    exact ⟨Memory.write_wf h.memWf (outAt_lt_of_fits hfits (hroom hcount)) _, hroom hcount,
      fun _ => Nat.lt_succ_self _, unusedBitsClear_zero _⟩
  · rwa [opened_of_count_ne_zero hcount]

theorem tokenPut_writerLegal {tok : Token} (h : WriterLegal s) (hfits : s.outRegion.fits = true)
    (hcount : s.count < 8) (hflag : s.flagPos < s.cursor) (hroom : s.cursor + tok.bytes.length ≤ s.cap) :
    WriterLegal (tokenPut tok s) :=
  ⟨writeBytes_out_wf h.memWf hfits hroom, hroom, fun _ => hflag.trans_le (Nat.le_add_right _ _),
    unusedBitsClear_markToken tok hcount h.flagBitsClear⟩

theorem closed_writerLegal {next : Nat} (h : WriterLegal s) (hfits : s.outRegion.fits = true)
    (hflag : s.flagPos < s.cursor) : WriterLegal (closed next s) := by
  unfold closed
  split
  · exact ⟨Memory.write_wf h.memWf (outAt_lt_of_fits hfits (hflag.trans_le h.cursorBound)) _, h.cursorBound,
      fun hcount => absurd hcount (Nat.lt_irrefl 0), unusedBitsClear_zero _⟩
  · exact h

/-- A whole emission keeps the writers' clauses where the flag byte and the token's bytes fit. -/
theorem emitted_writerLegal {tok : Token} (h : WriterLegal s) (hfits : s.outRegion.fits = true) (hcount : s.count < 8)
    (hroom : (opened s).cursor + tok.bytes.length ≤ s.cap) : WriterLegal (emitted tok s) := by
  have hreserve : s.count = 0 → s.cursor + 1 ≤ s.cap := fun h0 => by
    rw [opened_of_count_eq_zero h0] at hroom
    exact (Nat.le_add_right _ _).trans hroom
  have hflag := opened_flagPos_lt h.flagPosBound
  have hfits' : (opened s).outRegion.fits = true := by rwa [opened_outRegion]
  have hput : WriterLegal (tokenPut tok (opened s)) :=
    tokenPut_writerLegal (opened_writerLegal h hfits hreserve) hfits' (by rwa [opened_count]) hflag
      (by rwa [opened_cap])
  exact closed_writerLegal hput hfits' (hflag.trans_le (Nat.le_add_right _ _))

/-- Group close leaves a group that is not full (R140, R145). -/
theorem closed_count_lt {next : Nat} (h : s.count ≤ 8) : (closed next s).count < 8 := by
  unfold closed
  split
  · exact Nat.succ_pos 7
  · next hopen => exact lt_of_le_of_ne h fun h8 => hopen (.inl h8)

theorem closed_cursor (next : Nat) (s : State) : (closed next s).cursor = s.cursor := by
  unfold closed
  split <;> rfl

theorem emitted_count_lt (tok : Token) (h : s.count < 8) : (emitted tok s).count < 8 :=
  closed_count_lt (show (opened s).count + 1 ≤ 8 by rwa [opened_count])

theorem le_emitted_cursor (tok : Token) (s : State) : s.cursor ≤ (emitted tok s).cursor := by
  have hput : (tokenPut tok (opened s)).cursor = (opened s).cursor + tok.bytes.length := rfl
  rw [emitted, closed_cursor, hput, opened_cursor]
  omega

/-- The group is closed at the end of the input (R145). -/
theorem emitted_count_at_end {tok : Token} (h : s.off + tok.span = s.n) : (emitted tok s).count = 0 := by
  have hn : (tokenPut tok (opened s)).n = s.n := by
    obtain ⟨_, _, _, _, _, heq⟩ := (opened_repacked s).trans (tokenPut_repacked tok _)
    rw [heq, State.n, State.n]
  rw [emitted, closed, if_pos (.inr (h.trans hn.symm))]

/-! #### Assembling the invariant -/

/-- With no job running the clauses about the job's progress say nothing. -/
theorem inv_of_idle (hphase : s.phase = .idle) (hbusy : s.busy = false) (hmem : s.mem.wf) (hstatus : StatusLegal s) :
    Inv s := by
  have hpast : s.pastValidate = false := by rw [State.pastValidate, hphase]
  obtain ⟨herrDone, herrLegal, hbefore, hsuccess, hinvalid, hexhausted⟩ := hstatus
  exact
    { memWf := hmem
      busyIff := by simp [hbusy, hphase]
      notBusyAndDone := fun hrun => absurd hrun (Bool.eq_false_iff.1 hbusy)
      errOnlyDone := herrDone
      errLegal := herrLegal
      resultBeforeDone := hbefore
      resultSuccess := hsuccess
      resultInvalid := hinvalid
      resultExhausted := hexhausted
      fresh := by simp [hphase]
      argsValid := fun hp => absurd hp (Bool.eq_false_iff.1 hpast)
      ordinaryMemory := fun hp => absurd hp (Bool.eq_false_iff.1 hpast)
      cursorBound := fun hrun => absurd hphase hrun
      headerWritten := by simp [hphase]
      countBound := fun hrun => absurd hphase hrun
      flagPosBound := fun hrun => absurd hphase hrun
      flagBitsClear := fun hrun => absurd hphase hrun
      tokenPhase := by simp [hphase]
      padPhase := by simp [hphase] }

theorem inv_terminate (e : JobError) (hmem : s.mem.wf) : Inv (s.terminate e) :=
  inv_of_idle rfl rfl hmem (statusLegal_terminate e s)

theorem inv_exhausted (hmem : s.mem.wf) : Inv (exhausted s) := inv_terminate .outputExhausted hmem

/-- What the host's own fields hold is no part of the invariant. -/
theorem inv_of_looks (h : Inv s) (rdata : Word) (ops : List HostOp) (sched : List Agent) (ctr : Nat) :
    Inv { s with rdata := rdata, hostOps := ops, sched := sched, freeCtr := ctr } :=
  ⟨h.memWf, h.busyIff, h.notBusyAndDone, h.errOnlyDone, h.errLegal, h.resultBeforeDone, h.resultSuccess,
    h.resultInvalid, h.resultExhausted, h.fresh, h.argsValid, h.ordinaryMemory, h.cursorBound, h.headerWritten,
    h.countBound, h.flagPosBound, h.flagBitsClear, h.tokenPhase, h.padPhase⟩

theorem inv_useTurn (h : Inv s) : Inv s.useTurn := inv_of_looks h s.rdata s.hostOps _ s.freeCtr

/-- A job that goes on past VALIDATE keeps STATUS, RESULT and its arguments; what is left are the writers and the
clauses of the phase it comes to. -/
theorem inv_of_goes_on (h : Inv s) (hrun : s.phase ≠ .idle) (hbusy : t.busy = s.busy) (hdone : t.done = s.done)
    (herr : t.err = s.err) (hresult : t.result = s.result) (hpast : t.pastValidate = true)
    (hargs : t.argsInvalid = false) (hdev : t.regionOnDevice = false) (hwriter : WriterLegal t) (hcount : t.count < 8)
    (hheader : t.phase = .header → t.off = 0 ∧ t.cursor = 0 ∧ t.count = 0 ∧ t.flagVal = 0)
    (hwritten : t.phase = .token ∨ t.phase = .pad → 4 ≤ t.cursor)
    (htoken : t.phase = .token → t.off ≤ t.n ∧ (t.off = t.n → t.count = 0))
    (hpad : t.phase = .pad → t.off = t.n ∧ t.count = 0) : Inv t := by
  have hrunning : t.phase ≠ .idle ∧ t.phase ≠ .validate := by
    constructor <;> intro hp <;> simp [State.pastValidate, hp] at hpast
  have hbusyNow : s.busy = true := h.busyIff.2 hrun
  obtain ⟨herrDone, herrLegal, hbefore, hsuccess, hinvalid, hexhausted⟩ :=
    (statusLegal_of_inv h).congr hdone herr hresult
  exact
    { memWf := hwriter.memWf
      busyIff := by rw [hbusy]; exact iff_of_true hbusyNow hrunning.1
      notBusyAndDone := fun _ => hdone.trans (h.notBusyAndDone hbusyNow)
      errOnlyDone := herrDone
      errLegal := herrLegal
      resultBeforeDone := hbefore
      resultSuccess := hsuccess
      resultInvalid := hinvalid
      resultExhausted := hexhausted
      fresh := fun hp => hheader (hp.resolve_left hrunning.2)
      argsValid := fun _ => hargs
      ordinaryMemory := fun _ => hdev
      cursorBound := fun _ => hwriter.cursorBound
      headerWritten := hwritten
      countBound := fun _ => hcount
      flagPosBound := fun _ => hwriter.flagPosBound
      flagBitsClear := fun _ => hwriter.flagBitsClear
      tokenPhase := htoken
      padPhase := hpad }

/-! #### The engine's steps -/

theorem validate_keeps_inv (h : Inv s) (hphase : s.phase = .validate) (hstep : validateStep s = .next t) : Inv t := by
  have hrun : s.phase ≠ .idle := by simp [hphase]
  unfold validateStep at hstep
  split at hstep
  · cases hstep
    exact inv_terminate _ h.memWf
  · next hargs =>
    split at hstep
    · cases hstep
    · next hdev =>
      cases hstep
      have hwriter := writerLegal_of_inv h hrun
      exact inv_of_goes_on h hrun rfl rfl rfl rfl rfl (Bool.eq_false_iff.2 hargs) (Bool.eq_false_iff.2 hdev)
        ⟨hwriter.memWf, hwriter.cursorBound, hwriter.flagPosBound, hwriter.flagBitsClear⟩ (h.countBound hrun)
        (fun _ => h.fresh (.inl hphase)) (by simp) Phase.noConfusion Phase.noConfusion

variable (h : Inv s)
include h

theorem header_keeps_inv (hphase : s.phase = .header) (hstep : execHeader s.n s = .next t) : Inv t := by
  have hrun : s.phase ≠ .idle := by simp [hphase]
  have hpast : s.pastValidate = true := by rw [State.pastValidate, hphase]
  have hargs := h.argsValid hpast
  rcases execHeader_next hstep with ⟨hroom, rfl⟩ | rfl
  · exact inv_of_goes_on h hrun rfl rfl rfl rfl rfl hargs (h.ordinaryMemory hpast)
      ⟨writeBytes_out_wf h.memWf (State.fits_of_argsValid hargs).2 hroom, hroom,
        fun hcount => absurd hcount (Nat.lt_irrefl 0), unusedBitsClear_zero 0⟩ (Nat.succ_pos 7)
      Phase.noConfusion (fun _ => Nat.le_add_left 4 _) (fun _ => ⟨Nat.zero_le _, fun _ => rfl⟩) Phase.noConfusion
  · exact inv_exhausted h.memWf

theorem emit_keeps_inv (hphase : s.phase = .token) (hend : s.off ≠ s.n)
    (hstep : exec s.selected.toInstr s = .next t) : Inv t := by
  have hrun : s.phase ≠ .idle := by simp [hphase]
  have hpast : s.pastValidate = true := by rw [State.pastValidate, hphase]
  have hargs := h.argsValid hpast
  have hfits := (State.fits_of_argsValid hargs).2
  have hlegal := writerLegal_of_inv h hrun
  rcases exec_toInstr_next hstep with ⟨hroom, rfl⟩ | rfl | ⟨hroom, rfl⟩
  · obtain ⟨-, hle⟩ := selected_span (lt_of_le_of_ne (h.tokenPhase hphase).1 hend)
    have hwriter := emitted_writerLegal hlegal hfits (h.countBound hrun) hroom
    have hcount : (emitted s.selected s).count < 8 := emitted_count_lt _ (h.countBound hrun)
    have hheader := (h.headerWritten (.inl hphase)).trans (le_emitted_cursor s.selected s)
    have hcountEnd := emitted_count_at_end (tok := s.selected) (s := s)
    have hpack := emitted_repacked s.selected s
    generalize emitted s.selected s = u at *
    obtain ⟨_, _, _, _, _, rfl⟩ := hpack
    exact inv_of_goes_on h hrun rfl rfl rfl rfl hpast hargs (h.ordinaryMemory hpast)
      ⟨hwriter.memWf, hwriter.cursorBound, hwriter.flagPosBound, hwriter.flagBitsClear⟩ hcount
      (fun hp => by simp [hphase] at hp) (fun _ => hheader) (fun _ => ⟨hle, hcountEnd⟩)
      (fun hp => by simp [hphase] at hp)
  · exact inv_exhausted h.memWf
  · exact inv_exhausted (opened_writerLegal hlegal hfits hroom).memWf

theorem token_keeps_inv (hphase : s.phase = .token) (hstep : tokenStep s = .next t) : Inv t := by
  have hrun : s.phase ≠ .idle := by simp [hphase]
  have hpast : s.pastValidate = true := by rw [State.pastValidate, hphase]
  have hargs := h.argsValid hpast
  by_cases hend : s.off = s.n
  · rw [tokenStep_end hend] at hstep
    cases hstep
    obtain ⟨hmem, hcap, hflag, hbits⟩ := writerLegal_of_inv h hrun
    exact inv_of_goes_on h hrun rfl rfl rfl rfl rfl hargs (h.ordinaryMemory hpast) ⟨hmem, hcap, hflag, hbits⟩
      (h.countBound hrun) Phase.noConfusion (fun _ => h.headerWritten (.inl hphase)) Phase.noConfusion
      (fun _ => ⟨hend, (h.tokenPhase hphase).2 hend⟩)
  · rw [tokenStep_emits hend (State.fits_of_argsValid hargs).1] at hstep
    exact emit_keeps_inv h hphase hend hstep

theorem pad_keeps_inv (hphase : s.phase = .pad) (hstep : execPad s = .next t) : Inv t := by
  have hrun : s.phase ≠ .idle := by simp [hphase]
  have hpast : s.pastValidate = true := by rw [State.pastValidate, hphase]
  have hargs := h.argsValid hpast
  have hheader := h.headerWritten (.inr hphase)
  obtain ⟨hend, hcount⟩ := h.padPhase hphase
  obtain ⟨hmem, hcap, hflag, hbits⟩ := writerLegal_of_inv h hrun
  rcases execPad_next hstep with ⟨halign, rfl⟩ | ⟨-, hroom, rfl⟩ | rfl
  · exact inv_of_idle rfl rfl hmem (statusLegal_complete halign hheader hcap)
  · have hspace := outAt_lt_of_fits (State.fits_of_argsValid hargs).2 hroom
    exact inv_of_goes_on h hrun rfl rfl rfl rfl hpast hargs (h.ordinaryMemory hpast)
      ⟨Memory.write_wf hmem hspace _, hroom, fun h0 => (hflag h0).trans (Nat.lt_succ_self _), hbits⟩
      (h.countBound hrun) (fun hp => by simp [hphase] at hp) (fun _ => Nat.le_succ_of_le hheader)
      (fun hp => by simp [hphase] at hp) (fun _ => ⟨hend, hcount⟩)
  · exact inv_exhausted hmem

theorem engineStep_keeps_inv (hstep : engineStep s = .next t) : Inv t := by
  cases hphase : s.phase with
  | idle =>
    rw [engineStep_idle hphase] at hstep
    cases hstep
    exact h
  | validate => exact validate_keeps_inv h hphase (engineStep_validate hphase ▸ hstep)
  | header => exact header_keeps_inv h hphase (engineStep_header hphase ▸ hstep)
  | token => exact token_keeps_inv h hphase (engineStep_token hphase ▸ hstep)
  | pad => exact pad_keeps_inv h hphase (engineStep_pad hphase ▸ hstep)

/-! #### The host's moves -/

theorem phase_idle_of_not_busy (hbusy : s.busy = false) : s.phase = .idle := by
  by_contra hrun
  exact Bool.eq_false_iff.1 hbusy (h.busyIff.2 hrun)

/-- Memory may change as it likes, in its canonical form. -/
theorem inv_of_mem {mem : Memory} (hmem : mem.wf) : Inv { s with mem := mem } :=
  ⟨hmem, h.busyIff, h.notBusyAndDone, h.errOnlyDone, h.errLegal, h.resultBeforeDone, h.resultSuccess,
    h.resultInvalid, h.resultExhausted, h.fresh, h.argsValid, h.ordinaryMemory, h.cursorBound, h.headerWritten,
    h.countBound, h.flagPosBound, h.flagBitsClear, h.tokenPhase, h.padPhase⟩

/-- A job starts with a clean state (R33, R191). -/
theorem startJob_keeps_inv : Inv s.startJob := by
  obtain ⟨herrDone, herrLegal, hbefore, hsuccess, hinvalid, hexhausted⟩ :=
    statusLegal_of_cleared (s := s.startJob) rfl rfl rfl
  exact
    { memWf := h.memWf
      busyIff := iff_of_true rfl Phase.noConfusion
      notBusyAndDone := fun _ => rfl
      errOnlyDone := herrDone
      errLegal := herrLegal
      resultBeforeDone := hbefore
      resultSuccess := hsuccess
      resultInvalid := hinvalid
      resultExhausted := hexhausted
      fresh := fun _ => ⟨rfl, rfl, rfl, rfl⟩
      argsValid := Bool.noConfusion
      ordinaryMemory := Bool.noConfusion
      cursorBound := fun _ => Nat.zero_le _
      headerWritten := by simp
      countBound := fun _ => Nat.succ_pos 7
      flagPosBound := fun _ hcount => absurd hcount (Nat.lt_irrefl 0)
      flagBitsClear := fun _ => unusedBitsClear_zero 0
      tokenPhase := Phase.noConfusion
      padPhase := Phase.noConfusion }

theorem setArg_keeps_inv (r : ArgReg) (v : Word) (hbusy : s.busy = false) : Inv (s.setArg r v) := by
  have hphase := phase_idle_of_not_busy h hbusy
  have hstatus := statusLegal_of_inv h
  cases r <;> exact inv_of_idle hphase hbusy h.memWf (hstatus.congr rfl rfl rfl)

theorem resetBlock_keeps_inv : Inv s.resetBlock := by
  by_cases hphase : s.phase = .idle
  · rw [resetBlock_idle hphase]
    exact inv_of_idle rfl rfl h.memWf (statusLegal_of_cleared rfl rfl rfl)
  · rw [resetBlock_during_job hphase]
    exact inv_of_idle rfl rfl (Memory.scramble_wf h.memWf _ _ _) (statusLegal_of_cleared rfl rfl rfl)

theorem hostMove_keeps_inv (hmove : HostMove s t) : Inv t := by
  have hpopped (rest : List HostOp) : Inv { s with hostOps := rest } := inv_of_looks h _ rest _ _
  cases hmove with
  | looks rdata ops ctr => exact inv_of_looks h rdata ops s.sched ctr
  | starts v rest => exact startJob_keeps_inv (hpopped rest)
  | stores r v rest hbusy => exact setArg_keeps_inv (hpopped rest) r v hbusy
  | writes a v rest => exact inv_of_mem (hpopped rest) (Memory.write_wf h.memWf a.isLt v)
  | resets rest => exact inv_of_looks (resetBlock_keeps_inv h) _ rest _ _

end

/-- Settles O50: each phase's engine step and each host move, after the turn used up. -/
theorem invariantKept : Obligations.InvariantKept := by
  intro s t hinv hstep
  cases hturn : s.turn with
  | engine =>
    rw [step_engine hturn] at hstep
    exact engineStep_keeps_inv (inv_useTurn hinv) hstep
  | host =>
    rw [step_host hturn] at hstep
    exact hostMove_keeps_inv (inv_useTurn hinv) (hostStep_next hstep)

/-- Settles O47: the fields of the state after reset. -/
theorem resetValues : Obligations.ResetValues :=
  ⟨rfl, rfl, rfl, rfl, rfl, rfl, rfl, rfl, rfl, rfl, rfl, rfl⟩

/-- Settles O49: at reset no job runs and nothing is listed in memory. -/
theorem invariantAtReset : Obligations.InvariantAtReset :=
  inv_of_idle rfl rfl Memory.nil_wf (statusLegal_of_cleared rfl rfl rfl)

/-! #### What the invariant rules out -/

/-- VALIDATE makes no memory access (R217). -/
theorem validateStep_ne_fault (s : State) (f : Fault) : validateStep s ≠ .fault f := by
  intro h
  unfold validateStep at h
  split at h
  · cases h
  · split at h <;> cases h

/-- Past VALIDATE the engine always goes on, and before it touches no memory. -/
theorem engineStep_ne_fault {s : State} (h : Inv s) (f : Fault) : engineStep s ≠ .fault f := by
  intro hfault
  by_cases hvalidate : s.phase = .validate
  · rw [engineStep_validate hvalidate] at hfault
    exact validateStep_ne_fault s f hfault
  · cases hbusy : s.busy with
    | false =>
      rw [engineStep_idle (phase_idle_of_not_busy h hbusy)] at hfault
      cases hfault
    | true =>
      obtain ⟨t, hstep, -⟩ :=
        engineStep_advances (engineReady_of_inv h (.inl hbusy) fun hp => absurd hp hvalidate) hbusy
      cases hfault.symm.trans hstep

/-- Settles O51: neither agent's step faults. -/
theorem noFault : Obligations.NoFault := by
  intro s f hinv hfault
  cases hturn : s.turn with
  | engine => exact engineStep_ne_fault (inv_useTurn hinv) f (step_engine hturn ▸ hfault)
  | host => exact hostStep_ne_fault _ f (step_host hturn ▸ hfault)

/-- Every In[i] lies in the input region (R51). -/
theorem inRegion_contains_inAt {s : State} {i : Nat} (hi : i < s.n) : s.inRegion.contains (s.inAt i) = true :=
  (State.inRegion_contains _ _).2 ⟨Nat.add_le_add_left (Nat.zero_le i) _, Nat.add_lt_add_left hi _⟩

/-- Settles O52: past VALIDATE the arguments are valid, so both regions exist and keep apart. -/
theorem regionsDisjoint : Obligations.RegionsDisjoint := by
  intro s i j hinv hpast hi hj
  have hargs := hinv.argsValid hpast
  obtain ⟨hin, hout⟩ := State.fits_of_argsValid hargs
  have hoff := State.disjoint_of_argsValid hargs (inRegion_contains_inAt hi)
  refine ⟨fun heq => ?_, ?_, outAt_lt_of_fits hout hj⟩
  · rw [heq, Region.contains_eq_false] at hoff
    simp only [State.outRegion, State.outAt] at hoff
    omega
  · exact (Nat.add_lt_add_left hi _).trans_le ((State.inRegion_fits s).1 hin)

end Sys2Proof.Proofs

/-! ### The packer without a capacity (R178) -/

namespace Sys2Proof.Proofs

open Sys2Proof Sys2Proof.Machine Sys2Proof.Stated

/-! #### The reference function as a sequence of steps -/

section
variable (inp : Nat → Byte) (n cap : Nat) (p : Packer)

theorem packer_append_eq (bs : List Byte) :
    p.append cap bs = if cap < p.out.length + bs.length then .error p.out else .ok { p with out := p.out ++ bs } := rfl

/-- Group open notes the flag byte's place and appends its placeholder (R141). -/
theorem packer_openGroup_eq_bind :
    p.openGroup cap =
      if p.count = 0 then
        (Packer.append cap [0x00] { p with flagPos := p.out.length }).bind fun q => .ok { q with flagVal := 0 }
      else .ok p := by
  rw [Packer.openGroup]
  by_cases hover : cap < p.out.length + [(0x00 : Byte)].length
  · have happ (q : Packer) (hq : q.out = p.out) : q.append cap [0x00] = .error p.out := by
      rw [packer_append_eq, hq, if_pos hover]
    rw [happ p rfl, happ { p with flagPos := p.out.length } rfl]
    rfl
  · have happ (q : Packer) (hq : q.out = p.out) :
        q.append cap [0x00] = .ok { q with out := p.out ++ [0x00] } := by
      rw [packer_append_eq, hq, if_neg hover]
    rw [happ p rfl, happ { p with flagPos := p.out.length } rfl]
    rfl

theorem packer_putToken_eq_bind (tok : Token) :
    p.putToken cap tok =
      (p.append cap tok.bytes).bind fun q => .ok
        { q with
          flagVal := if tok.isMatch then setFlagBit q.flagVal q.count else q.flagVal, count := q.count + 1 } := by
  rw [Packer.putToken]
  cases p.append cap tok.bytes <;> rfl

theorem packer_emit_eq_bind (next : Nat) (tok : Token) :
    p.emit cap n next tok =
      (p.openGroup cap).bind fun q => (q.putToken cap tok).bind fun r => .ok (r.closeGroup n next) := by
  rw [Packer.emit]
  cases p.openGroup cap with
  | error w => rfl
  | ok q => simp only [Except.bind]; cases q.putToken cap tok <;> rfl

theorem packer_loop_eq_bind (k off : Nat) :
    Packer.loop inp n cap (k + 1) off p =
      if off < n then
        (p.emit cap n (select inp n off).2 (select inp n off).1).bind fun q =>
          Packer.loop inp n cap k (select inp n off).2 q
      else .ok p := by
  rw [Packer.loop]
  cases p.emit cap n (select inp n off).2 (select inp n off).1 <;> rfl

theorem packer_pad_eq_bind (k : Nat) :
    Packer.pad cap (k + 1) p =
      if p.out.length % Config.padMultiple = 0 then .ok p else (p.append cap [0x00]).bind (Packer.pad cap k) := by
  rw [Packer.pad]
  cases p.append cap [0x00] <;> rfl

end

/-- The packer before the header. -/
def emptyPacker : Packer := { out := [], flagPos := 0, flagVal := 0, count := 0 }

theorem compress_eq_bind (bytes : List Byte) (cap : Nat) :
    compress bytes cap =
      ((emptyPacker.append cap (headerBytes bytes.length)).bind fun p =>
        (Packer.loop (byteAt bytes) bytes.length cap bytes.length 0 p).bind
          (Packer.pad cap (Config.padMultiple - 1))).map Packer.out := by
  rw [compress, emptyPacker]
  cases Packer.append cap (headerBytes bytes.length) { out := [], flagPos := 0, flagVal := 0, count := 0 } with
  | error w => rfl
  | ok p =>
    simp only [Except.bind]
    cases Packer.loop (byteAt bytes) bytes.length cap bytes.length 0 p with
    | error w => rfl
    | ok q => simp only; cases Packer.pad cap (Config.padMultiple - 1) q <;> rfl

/-! #### The same steps where everything fits -/

/-- Group open (R141). -/
def packOpened (p : Packer) : Packer :=
  if p.count = 0 then { p with out := p.out ++ [0x00], flagPos := p.out.length, flagVal := 0 } else p

/-- A token's bytes, its flag bit and the count (R142, R143, R144). -/
def packToken (tok : Token) (p : Packer) : Packer :=
  { p with
    out := p.out ++ tok.bytes, flagVal := if tok.isMatch then setFlagBit p.flagVal p.count else p.flagVal,
    count := p.count + 1 }

/-- Emission of a token (R147). -/
def packEmitted (n next : Nat) (tok : Token) (p : Packer) : Packer := (packToken tok (packOpened p)).closeGroup n next

/-- The main loop from `off` on; the first argument bounds the number of tokens. -/
def packLoop (inp : Nat → Byte) (n : Nat) : Nat → Nat → Packer → Packer
  | 0, _, p => p
  | k + 1, off, p =>
    if off < n then
      packLoop inp n k (select inp n off).2 (packEmitted n (select inp n off).2 (select inp n off).1 p)
    else p

/-- The padding up to a multiple of 4 (R76). -/
def packPadded (p : Packer) : Packer := { p with out := p.out ++ List.replicate (padCount p.out.length) 0x00 }

/-- The capacity alone decides: `e` goes on to `q` when the bytes of `q` fit, and ends with at most `cap` bytes written
when they do not (R160, R161). -/
def CapDecides (cap : Nat) (e : Except (List Byte) Packer) (q : Packer) : Prop :=
  (q.out.length ≤ cap → e = .ok q) ∧ (cap < q.out.length → ∃ w, e = .error w ∧ w.length ≤ cap)

section
variable {inp : Nat → Byte} {n cap next k off : Nat} {p q r : Packer} {e : Except (List Byte) Packer} {tok : Token}

theorem capDecides_ok (h : p.out.length ≤ cap) : CapDecides cap (.ok p) p := ⟨fun _ => rfl, fun hover => by omega⟩

theorem CapDecides.of_ok (h : CapDecides cap e q) (he : e = .ok r) : r = q ∧ r.out.length ≤ cap := by
  rcases Nat.lt_or_ge cap q.out.length with hover | hroom
  · obtain ⟨w, hw, -⟩ := h.2 hover
    cases he.symm.trans hw
  · obtain rfl := Except.ok.inj (he.symm.trans (h.1 hroom))
    exact ⟨rfl, hroom⟩

/-- Steps in a row, of which the later ones only add bytes. -/
theorem CapDecides.bind {f : Packer → Except (List Byte) Packer} (h : CapDecides cap e q)
    (hle : q.out.length ≤ r.out.length) (hf : q.out.length ≤ cap → CapDecides cap (f q) r) :
    CapDecides cap (e.bind f) r := by
  rcases Nat.lt_or_ge cap q.out.length with hover | hroom
  · obtain ⟨w, rfl, hw⟩ := h.2 hover
    exact ⟨fun hr => by omega, fun _ => ⟨w, rfl, hw⟩⟩
  · rw [h.1 hroom]
    exact hf hroom

theorem append_capDecides (bs : List Byte) (h : p.out.length ≤ cap) :
    CapDecides cap (p.append cap bs) { p with out := p.out ++ bs } := by
  rw [packer_append_eq, CapDecides, List.length_append]
  exact ⟨fun hroom => if_neg (not_lt.2 hroom), fun hover => ⟨p.out, if_pos hover, h⟩⟩

theorem openGroup_capDecides (h : p.out.length ≤ cap) : CapDecides cap (p.openGroup cap) (packOpened p) := by
  rw [packer_openGroup_eq_bind, packOpened]
  split
  · exact (append_capDecides (p := { p with flagPos := p.out.length }) [0x00] h).bind le_rfl
      fun hroom => capDecides_ok hroom
  · exact capDecides_ok h

theorem putToken_capDecides (h : p.out.length ≤ cap) : CapDecides cap (p.putToken cap tok) (packToken tok p) := by
  rw [packer_putToken_eq_bind]
  exact (append_capDecides tok.bytes h).bind le_rfl fun hroom => capDecides_ok hroom

@[simp] theorem packer_closeGroup_length (n next : Nat) (p : Packer) :
    (p.closeGroup n next).out.length = p.out.length := by
  unfold Packer.closeGroup
  split
  · exact List.length_set
  · rfl

theorem length_le_packOpened (p : Packer) : p.out.length ≤ (packOpened p).out.length := by
  unfold packOpened
  split <;> simp

theorem length_le_packToken (tok : Token) (p : Packer) : p.out.length ≤ (packToken tok p).out.length := by
  simp [packToken]

theorem length_le_packEmitted (n next : Nat) (tok : Token) (p : Packer) :
    p.out.length ≤ (packEmitted n next tok p).out.length := by
  rw [packEmitted, packer_closeGroup_length]
  exact (length_le_packOpened p).trans (length_le_packToken tok _)

theorem emit_capDecides (h : p.out.length ≤ cap) :
    CapDecides cap (p.emit cap n next tok) (packEmitted n next tok p) := by
  rw [packer_emit_eq_bind]
  have hclosed : (packToken tok (packOpened p)).out.length = (packEmitted n next tok p).out.length := by
    rw [packEmitted, packer_closeGroup_length]
  refine (openGroup_capDecides h).bind (hclosed ▸ length_le_packToken tok _) fun hopen => ?_
  exact (putToken_capDecides hopen).bind hclosed.le fun hput => capDecides_ok (hclosed ▸ hput)

theorem length_le_packLoop (inp : Nat → Byte) (n k off : Nat) (p : Packer) :
    p.out.length ≤ (packLoop inp n k off p).out.length := by
  induction k generalizing off p with
  | zero => rfl
  | succ k ih =>
    rw [packLoop]
    split
    · exact (length_le_packEmitted _ _ _ p).trans (ih _ _)
    · rfl

theorem loop_capDecides (h : p.out.length ≤ cap) :
    CapDecides cap (Packer.loop inp n cap k off p) (packLoop inp n k off p) := by
  induction k generalizing off p with
  | zero => exact capDecides_ok h
  | succ k ih =>
    rw [packer_loop_eq_bind, packLoop]
    split
    · exact (emit_capDecides h).bind (length_le_packLoop _ _ _ _ _) ih
    · exact capDecides_ok h

theorem packPadded_of_aligned (h : p.out.length % Config.padMultiple = 0) : packPadded p = p := by
  have hpad : padCount p.out.length = 0 := by rw [padCount, h]; rfl
  rw [packPadded, hpad, List.replicate_zero, List.append_nil]

/-- Each padding byte leaves one fewer to come (R76). -/
theorem padCount_append_singleton {bs : List Byte} (b : Byte) (h : bs.length % Config.padMultiple ≠ 0) :
    padCount bs.length = padCount (bs ++ [b]).length + 1 := by
  rw [List.length_append, List.length_singleton]
  simp only [padCount, Config.padMultiple] at h ⊢
  omega

/-- One padding byte at a time (R176). -/
theorem packPadded_of_unaligned (h : p.out.length % Config.padMultiple ≠ 0) :
    packPadded p = packPadded { p with out := p.out ++ [0x00] } := by
  simp only [packPadded, padCount_append_singleton 0x00 h, List.replicate_succ, List.append_assoc,
    List.singleton_append]

theorem length_le_packPadded (p : Packer) : p.out.length ≤ (packPadded p).out.length := by simp [packPadded]

theorem pad_capDecides (hk : padCount p.out.length ≤ k) (h : p.out.length ≤ cap) :
    CapDecides cap (Packer.pad cap k p) (packPadded p) := by
  induction k generalizing p with
  | zero =>
    have haligned := (padCount_aligns p.out.length).2
    rw [Nat.le_zero.1 hk, Nat.add_zero] at haligned
    rw [packPadded_of_aligned haligned]
    exact capDecides_ok h
  | succ k ih =>
    rw [packer_pad_eq_bind]
    split
    · next haligned =>
      rw [packPadded_of_aligned haligned]
      exact capDecides_ok h
    · next hpad =>
      rw [packPadded_of_unaligned hpad]
      rw [padCount_append_singleton 0x00 hpad] at hk
      exact (append_capDecides [0x00] h).bind (length_le_packPadded _) (ih (Nat.le_of_succ_le_succ hk))

end

/-- The packer of a whole stream, where everything fits. -/
def packStream (bytes : List Byte) : Packer :=
  packPadded (packLoop (byteAt bytes) bytes.length bytes.length 0
    { emptyPacker with out := headerBytes bytes.length })

/-- The reference function's steps, with the capacity to decide. -/
theorem stream_capDecides (bytes : List Byte) (cap : Nat) :
    CapDecides cap
      ((emptyPacker.append cap (headerBytes bytes.length)).bind fun p =>
        (Packer.loop (byteAt bytes) bytes.length cap bytes.length 0 p).bind (Packer.pad cap (Config.padMultiple - 1)))
      (packStream bytes) := by
  refine (append_capDecides (headerBytes bytes.length) (Nat.zero_le cap)).bind ?_ fun h => ?_
  · exact (length_le_packLoop _ _ _ _ _).trans (length_le_packPadded _)
  · exact (loop_capDecides h).bind (length_le_packPadded _) fun h => pad_capDecides (padCount_aligns _).1 h

end Sys2Proof.Proofs

/-! ### The packer's bytes are the stream of the grammar (R70, R72, R73) -/

namespace Sys2Proof.Proofs

open Sys2Proof Sys2Proof.Machine Sys2Proof.Stated

/-- The groups of a token list, with as many steps as it has tokens. -/
def groups (ts : List Token) : List Byte := groupsBytes ts.length ts

theorem streamBody_eq (n : Nat) (ts : List Token) : streamBody n ts = headerBytes n ++ groups ts := rfl

@[simp] theorem groups_nil : groups [] = [] := rfl

/-- A step for every token is more than the groups need. -/
theorem groupsBytes_eq_groups {k : Nat} {ts : List Token} (h : ts.length ≤ k) : groupsBytes k ts = groups ts := by
  rw [groups]
  induction hm : ts.length using Nat.strong_induction_on generalizing ts k with
  | _ m ih =>
    subst hm
    rcases eq_or_ne ts [] with rfl | hne
    · cases k <;> rfl
    · have hpos := List.length_pos_of_ne_nil hne
      obtain ⟨k, rfl⟩ := Nat.exists_eq_add_one.2 (hpos.trans_le h)
      obtain ⟨m, hm⟩ := Nat.exists_eq_add_one.2 hpos
      have hlt : (ts.drop 8).length < ts.length := by rw [List.length_drop]; omega
      rw [hm, groupsBytes_of_ne_nil hne, groupsBytes_of_ne_nil hne,
        ih _ hlt (ts := ts.drop 8) (k := k) (by omega) rfl, ih _ hlt (ts := ts.drop 8) (k := m) (by omega) rfl]

theorem groups_of_ne_nil {ts : List Token} (h : ts ≠ []) :
    groups ts = flagByteFrom 0 (ts.take 8) :: ((ts.take 8).flatMap Token.bytes ++ groups (ts.drop 8)) := by
  obtain ⟨m, hm⟩ := Nat.exists_eq_add_one.2 (List.length_pos_of_ne_nil h)
  rw [groups, hm, groupsBytes_of_ne_nil h, groupsBytes_eq_groups (by rw [List.length_drop]; omega)]

/-- What is out once the open group of `p` has taken its share of the tokens `ts` and is closed, and the others have
followed in groups of their own. -/
def filled (p : Packer) (ts : List Token) : List Byte :=
  p.out.set p.flagPos (p.flagVal ||| flagByteFrom p.count (ts.take (8 - p.count))) ++
    ((ts.take (8 - p.count)).flatMap Token.bytes ++ groups (ts.drop (8 - p.count)))

/-- What is out once the tokens `ts` have followed `p`. -/
def finished (p : Packer) (ts : List Token) : List Byte := if p.count = 0 then p.out ++ groups ts else filled p ts

/-- Between tokens the open group is not full and its flag byte is one of the bytes out. -/
structure PackerLegal (p : Packer) : Prop where
  count_lt : p.count < 8
  flagPos_lt : 0 < p.count → p.flagPos < p.out.length

section
variable {inp : Nat → Byte} {n next k off : Nat} {p : Packer} {tok : Token} {ts : List Token}

theorem packOpened_of_count_eq_zero (h : p.count = 0) :
    packOpened p = { p with out := p.out ++ [0x00], flagPos := p.out.length, flagVal := 0 } := if_pos h

theorem packOpened_of_count_ne_zero (h : p.count ≠ 0) : packOpened p = p := if_neg h

@[simp] theorem packOpened_count (p : Packer) : (packOpened p).count = p.count := by
  unfold packOpened
  split <;> rfl

theorem PackerLegal.packOpened_flagPos_lt (h : PackerLegal p) : (packOpened p).flagPos < (packOpened p).out.length := by
  by_cases hcount : p.count = 0
  · simp [packOpened_of_count_eq_zero hcount]
  · rw [packOpened_of_count_ne_zero hcount]
    exact h.flagPos_lt (Nat.pos_of_ne_zero hcount)

/-- Opening a group puts the flag byte where the next group's stands. -/
theorem filled_packOpened (h : ts ≠ []) : filled (packOpened p) ts = finished p ts := by
  by_cases hcount : p.count = 0
  · rw [packOpened_of_count_eq_zero hcount, finished, if_pos hcount, filled, groups_of_ne_nil h]
    simp [hcount]
  · rw [packOpened_of_count_ne_zero hcount, finished, if_neg hcount]

/-- A token goes to the open group with its bytes and its flag bit (R142, R143). -/
theorem filled_packToken (hcount : p.count < 8) (hflag : p.flagPos < p.out.length) :
    filled (packToken tok p) ts = filled p (tok :: ts) := by
  have hleft : 8 - p.count = 8 - (p.count + 1) + 1 := by omega
  have hbit : (if tok.isMatch then setFlagBit p.flagVal p.count else p.flagVal) =
      p.flagVal ||| if tok.isMatch then (1 : Byte) <<< (7 - p.count) else 0 := by
    split
    · rfl
    · exact (BitVec.or_zero).symm
  rw [filled, filled, packToken, hleft, List.take_succ_cons, List.drop_succ_cons, flagByteFrom, List.flatMap_cons,
    List.set_append_left _ _ hflag, hbit, BitVec.or_assoc]
  simp only [List.append_assoc]

/-- A group is closed by its 8th token or with the last token of the input (R145). -/
theorem finished_closeGroup (hcount : p.count ≠ 0) (hend : next = n ↔ ts = []) :
    finished (p.closeGroup n next) ts = filled p ts := by
  unfold Packer.closeGroup
  split
  · next hclose =>
    have hfull : ts.take (8 - p.count) = [] ∧ ts.drop (8 - p.count) = ts := by
      rcases hclose with hfull | hnext
      · rw [hfull]
        exact ⟨rfl, rfl⟩
      · rw [hend.1 hnext]
        exact ⟨List.take_nil, List.drop_nil⟩
    rw [finished, if_pos rfl, filled, hfull.1, hfull.2, flagByteFrom]
    simp
  · rw [finished, if_neg hcount]

/-- A token's emission moves it from those to come to the bytes out. -/
theorem finished_packEmitted (h : PackerLegal p) (hend : next = n ↔ ts = []) :
    finished (packEmitted n next tok p) ts = finished p (tok :: ts) := by
  have hcount : (packOpened p).count < 8 := by rw [packOpened_count]; exact h.count_lt
  rw [packEmitted, finished_closeGroup (Nat.succ_ne_zero _) hend, filled_packToken hcount h.packOpened_flagPos_lt,
    filled_packOpened (List.cons_ne_nil tok ts)]

theorem packEmitted_packerLegal (h : PackerLegal p) : PackerLegal (packEmitted n next tok p) := by
  have hcount := h.count_lt
  have hflag := h.packOpened_flagPos_lt.trans_le (length_le_packToken tok _)
  rw [packEmitted, Packer.closeGroup]
  split
  · exact ⟨Nat.succ_pos 7, fun h0 => absurd h0 (Nat.lt_irrefl 0)⟩
  · next hopen =>
    have hle : (packToken tok (packOpened p)).count ≤ 8 := by
      simpa [packToken] using hcount
    exact ⟨lt_of_le_of_ne hle fun h8 => hopen (.inl h8), fun _ => hflag⟩

theorem packEmitted_count_at_end (h : next = n) : (packEmitted n next tok p).count = 0 := by
  rw [packEmitted, Packer.closeGroup, if_pos (.inr h)]

theorem tokensFrom_eq_nil_iff (hk : n ≤ off + k) (hoff : off ≤ n) : tokensFrom inp n k off = [] ↔ off = n := by
  cases k with
  | zero => simp [tokensFrom]; omega
  | succ k =>
    rw [tokensFrom_succ]
    split
    · next hlt => simpa using hlt.ne
    · next hend => simpa using hoff.antisymm (not_lt.1 hend)

/-- The main loop puts out the tokens from its offset on. -/
theorem packLoop_out (hk : n ≤ off + k) (hoff : off ≤ n) (h : PackerLegal p) (hend : off = n → p.count = 0) :
    (packLoop inp n k off p).out = finished p (tokensFrom inp n k off) := by
  have hdone (hn : off = n) : p.out = finished p [] := by
    rw [finished, if_pos (hend hn), groups_nil, List.append_nil]
  induction k generalizing off p with
  | zero => exact hdone (hoff.antisymm hk)
  | succ k ih =>
    rw [packLoop, tokensFrom_succ]
    split
    · next hlt =>
      obtain ⟨-, -, hnext, hle⟩ := selectAdvances inp n off hlt
      have hlast := tokensFrom_eq_nil_iff (inp := inp) (k := k) (by omega) hle
      rw [← finished_packEmitted h hlast.symm]
      refine ih (by omega) hle (packEmitted_packerLegal h) packEmitted_count_at_end fun hn => ?_
      rw [finished, if_pos (packEmitted_count_at_end hn), groups_nil, List.append_nil]
    · next hn => exact hdone (hoff.antisymm (not_lt.1 hn))

end

theorem streamOf_length (n : Nat) (ts : List Token) :
    (streamOf n ts).length = (streamBody n ts).length + padCount (streamBody n ts).length := by
  rw [streamOf, List.length_append, List.length_replicate]

/-- Where everything fits the packer has put out the stream of R70. -/
theorem packStream_out (bytes : List Byte) : (packStream bytes).out = streamOf bytes.length (tokensOf bytes) := by
  have hstart : PackerLegal { emptyPacker with out := headerBytes bytes.length } :=
    ⟨Nat.succ_pos 7, fun h0 => absurd h0 (Nat.lt_irrefl 0)⟩
  have hloop := packLoop_out (inp := byteAt bytes) (n := bytes.length) (k := bytes.length) (by omega) (Nat.zero_le _)
    hstart fun _ => rfl
  rw [packStream, packPadded, hloop]
  rfl

/-- Settles O56: the capacity decides between the whole stream and an error, at the stream's length. -/
theorem referenceGivesStream : Obligations.ReferenceGivesStream := by
  intro bytes cap
  have hdecides := stream_capDecides bytes cap
  rw [CapDecides, packStream_out] at hdecides
  obtain ⟨hok, herr⟩ := hdecides
  rw [compress_eq_bind, requirement]
  refine ⟨fun hroom => ?_, fun hover => ?_⟩
  · rw [hok hroom, ← packStream_out]
    rfl
  · obtain ⟨w, hw, hlen⟩ := herr hover
    exact ⟨w, by rw [hw]; rfl, hlen⟩

/-! #### The length of the stream -/

theorem compress_eq_ok {bytes out : List Byte} {cap : Nat} (h : compress bytes cap = .ok out) :
    out = streamOf bytes.length (tokensOf bytes) ∧ out.length ≤ cap := by
  rcases Nat.lt_or_ge cap (requirement bytes) with hover | hroom
  · obtain ⟨w, hw, -⟩ := (referenceGivesStream bytes cap).2 hover
    cases h.symm.trans hw
  · obtain rfl := Except.ok.inj (h.symm.trans ((referenceGivesStream bytes cap).1 hroom))
    exact ⟨rfl, hroom⟩

/-- Settles O60: a successful stream is the one of the grammar, padded behind the header's four bytes. -/
theorem streamShape : Obligations.StreamShape := by
  intro bytes out cap hlen hok
  obtain ⟨rfl, -⟩ := compress_eq_ok hok
  have hheader : (headerBytes bytes.length).length = 4 := rfl
  have hbody : 4 ≤ (streamBody bytes.length (tokensOf bytes)).length := by
    rw [streamBody_eq, List.length_append, hheader]
    exact Nat.le_add_right 4 _
  have htake : (streamOf bytes.length (tokensOf bytes)).take 4 = headerBytes bytes.length := by
    rw [streamOf_eq, ← hheader, List.take_left]
  rw [htake, leNat_headerBytes hlen, streamOf_length, Config.formatTag]
  exact ⟨(padCount_aligns _).2, by omega, by omega, by omega⟩

/-- A flag byte for every 8 tokens or part of it (R72). -/
theorem groups_length (ts : List Token) :
    (groups ts).length = (ts.flatMap Token.bytes).length + (ts.length + 7) / 8 := by
  induction hm : ts.length using Nat.strong_induction_on generalizing ts with
  | _ m ih =>
    subst hm
    rcases eq_or_ne ts [] with rfl | hne
    · rfl
    · have hpos := List.length_pos_of_ne_nil hne
      have hrest := ih _ (by rw [List.length_drop]; omega) (ts.drop 8) rfl
      have hsplit : (ts.flatMap Token.bytes).length =
          ((ts.take 8).flatMap Token.bytes).length + ((ts.drop 8).flatMap Token.bytes).length := by
        rw [← List.length_append, ← List.flatMap_append, List.take_append_drop]
      rw [List.length_drop] at hrest
      rw [groups_of_ne_nil hne, List.length_cons, List.length_append, hrest, hsplit]
      omega

/-- The exact requirement, from the tokens' bytes and their number (R184). -/
theorem requirement_eq (bytes : List Byte) :
    requirement bytes =
      (4 + ((tokensOf bytes).flatMap Token.bytes).length + ((tokensOf bytes).length + 7) / 8 + 3) / 4 * 4 := by
  have hheader : (headerBytes bytes.length).length = 4 := rfl
  rw [requirement, streamOf_length, streamBody_eq, List.length_append, groups_length, hheader, padCount,
    Config.padMultiple]
  omega

/-- The tokens from an offset on cover the rest of the input (R123). -/
theorem tokensFrom_span_sum {inp : Nat → Byte} {n k off : Nat} (hk : n ≤ off + k) (hoff : off ≤ n) :
    off + ((tokensFrom inp n k off).map Token.span).sum = n := by
  induction k generalizing off with
  | zero => exact hoff.antisymm hk
  | succ k ih =>
    rw [tokensFrom_succ]
    split
    · next hlt =>
      obtain ⟨-, -, hnext, hle⟩ := selectAdvances inp n off hlt
      have hrest := ih (off := (select inp n off).2) (by omega) hle
      rw [List.map_cons, List.sum_cons, ← Nat.add_assoc, ← select_snd]
      exact hrest
    · next hend => exact hoff.antisymm (not_lt.1 hend)

theorem tokensOf_span_sum (bytes : List Byte) : ((tokensOf bytes).map Token.span).sum = bytes.length := by
  have hcover := tokensFrom_span_sum (inp := byteAt bytes) (n := bytes.length) (k := bytes.length) (by omega)
    (Nat.zero_le _)
  rwa [Nat.zero_add] at hcover

theorem tokensFrom_wf {inp : Nat → Byte} {n k off : Nat} : ∀ tok ∈ tokensFrom inp n k off, tok.wf = true := by
  induction k generalizing off with
  | zero => exact fun tok htok => absurd htok List.not_mem_nil
  | succ k ih =>
    rw [tokensFrom_succ]
    split
    · exact List.forall_mem_cons.2 ⟨wf_of_emittable (select_emittable inp n off), ih⟩
    · exact fun tok htok => absurd htok List.not_mem_nil

theorem tokensOf_wf (bytes : List Byte) : ∀ tok ∈ tokensOf bytes, tok.wf = true := tokensFrom_wf

/-- A match of two bytes stands for at least three. -/
theorem bytes_length_le_span {tok : Token} (h : tok.wf = true) : tok.bytes.length ≤ tok.span := by
  cases tok with
  | literal b => rfl
  | backRef l d =>
    obtain ⟨⟨hl, -⟩, -⟩ := (wf_backRef_iff l d).1 h
    exact Nat.le_of_succ_le hl

/-- Neither the tokens' bytes nor their number is more than what they stand for. -/
theorem tokens_le_span_sum {ts : List Token} (h : ∀ tok ∈ ts, tok.wf = true) :
    (ts.flatMap Token.bytes).length ≤ (ts.map Token.span).sum ∧ ts.length ≤ (ts.map Token.span).sum := by
  induction ts with
  | nil => exact ⟨le_rfl, le_rfl⟩
  | cons tok ts ih =>
    obtain ⟨hwf, hwfs⟩ := List.forall_mem_cons.1 h
    obtain ⟨hbytes, hlen⟩ := ih hwfs
    have hspan := bytes_length_le_span hwf
    have hpos := span_pos_of_wf hwf
    simp only [List.flatMap_cons, List.length_append, List.length_cons, List.map_cons, List.sum_cons]
    omega

/-- Literals are one byte each and stand for one. -/
theorem literals_eq_span_sum {ts : List Token} (h : ∀ tok ∈ ts, tok.isMatch = false) :
    (ts.flatMap Token.bytes).length = (ts.map Token.span).sum ∧ ts.length = (ts.map Token.span).sum := by
  induction ts with
  | nil => exact ⟨rfl, rfl⟩
  | cons tok ts ih =>
    obtain ⟨hlit, hlits⟩ := List.forall_mem_cons.1 h
    obtain ⟨hbytes, hlen⟩ := ih hlits
    cases tok with
    | backRef l d => cases hlit
    | literal b =>
      simp only [List.flatMap_cons, List.length_append, List.length_cons, List.map_cons, List.sum_cons, Token.bytes,
        Token.span, List.length_nil]
      omega

/-- Settles O59: the requirement grows with the tokens' bytes and their number, and literals have the most of both. -/
theorem allLiteralIsLongest : Obligations.AllLiteralIsLongest := by
  intro bytes
  rw [requirement_eq]
  refine ⟨?_, fun hlits => ?_⟩
  · obtain ⟨hbytes, hlen⟩ := tokens_le_span_sum (tokensOf_wf bytes)
    rw [tokensOf_span_sum] at hbytes hlen
    omega
  · obtain ⟨hbytes, hlen⟩ := literals_eq_span_sum hlits
    rw [hbytes, hlen, tokensOf_span_sum]

/-- Settles O58: the longest stream of N bytes stays within the bound, so the capacity never fails. -/
theorem compressBoundSuffices : Obligations.CompressBoundSuffices := by
  refine ⟨fun n => rfl, fun bytes cap hcap => ?_⟩
  have hbound : requirement bytes ≤ compressBound bytes.length := by
    have hlongest := (allLiteralIsLongest bytes).1
    rw [compressBound]
    omega
  exact ⟨_, (referenceGivesStream bytes cap).1 (hbound.trans hcap), hbound⟩

end Sys2Proof.Proofs

/-! ### The engine runs the reference function (R178) -/

namespace Sys2Proof.Machine

/-- Bytes stored in two pieces. -/
theorem Memory.writeBytes_append (m : Memory) (a : Nat) (bs cs : List Byte) :
    m.writeBytes a (bs ++ cs) = (m.writeBytes a bs).writeBytes (a + bs.length) cs := by
  induction bs generalizing m a with
  | nil => rfl
  | cons b bs ih =>
    rw [List.cons_append, Memory.writeBytes_cons, Memory.writeBytes_cons, ih, List.length_cons, Nat.add_assoc,
      Nat.add_comm 1 bs.length]

/-- A byte stored again among bytes just stored. -/
theorem Memory.write_writeBytes {m : Memory} (hm : m.wf) {a i : Nat} {bs : List Byte}
    (hspace : a + bs.length ≤ Config.spaceSize) (hi : i < bs.length) (v : Byte) :
    (m.writeBytes a bs).write (a + i) v = m.writeBytes a (bs.set i v) := by
  have hlen : (bs.set i v).length = bs.length := List.length_set
  have hwf := Memory.writeBytes_wf hm hspace
  refine Memory.ext_of_read (Memory.write_wf hwf (by omega) v) (Memory.writeBytes_wf hm (by omega)) fun x => ?_
  by_cases hin : a ≤ x ∧ x < a + bs.length
  · obtain ⟨j, rfl⟩ := Nat.exists_eq_add_of_le hin.1
    have hj : j < bs.length := by omega
    rw [Memory.read_write hwf, Memory.read_writeBytes_inside hm hspace hj,
      Memory.read_writeBytes_inside hm (by omega) (by omega), List.getD_eq_getElem?_getD, List.getD_eq_getElem?_getD,
      List.getElem?_set]
    by_cases hij : i = j
    · simp [hij, hj]
    · simp [hij]
  · rw [Memory.read_write_other (by omega), Memory.read_writeBytes_outside (by omega),
      Memory.read_writeBytes_outside (by omega)]

end Sys2Proof.Machine

namespace Sys2Proof.Proofs

open Sys2Proof Sys2Proof.Machine Sys2Proof.Stated

/-- The job launched in `s`, in a phase and at an input offset, with a packer's bytes in the output region and the
packer's group open. -/
def jobAt (s : State) (phase : Phase) (off : Nat) (p : Packer) : State :=
  { s with
    phase := phase, off := off, mem := s.mem.writeBytes (s.outAt 0) p.out, cursor := p.out.length,
    flagPos := p.flagPos, flagVal := p.flagVal, count := p.count }

/-- An effect does to the job what a step of the packer does to its bytes; where the packer stops, the bytes it wrote
are in memory. -/
def Mirrors (job : Packer → State) (e : Except (List Byte) Packer) (f : Effect) : Prop :=
  match e with
  | .ok p => f = .ok (job p)
  | .error w => ∃ p, p.out = w ∧ f = .raise .outputExhausted (job p)

section
variable {s : State} {phase : Phase} {off next : Nat} {p : Packer} {job : Packer → State} {tok : Token}

theorem Mirrors.andThen {e : Except (List Byte) Packer} {f : Effect} {g : Packer → Except (List Byte) Packer}
    {k : State → Effect} (h : Mirrors job e f) (hk : ∀ p, e = .ok p → Mirrors job (g p) (k (job p))) :
    Mirrors job (e.bind g) (f.andThen k) := by
  cases e with
  | ok p =>
    obtain rfl : f = .ok (job p) := h
    exact hk p rfl
  | error w =>
    obtain ⟨p, hp, rfl⟩ := h
    exact ⟨p, hp, rfl⟩

theorem mirrors_ok (p : Packer) : Mirrors job (.ok p) (.ok (job p)) := rfl

theorem jobAt_append (s : State) (phase : Phase) (off : Nat) (p : Packer) (bs : List Byte) :
    jobAt s phase off { p with out := p.out ++ bs } =
      { jobAt s phase off p with
        mem := (jobAt s phase off p).mem.writeBytes ((jobAt s phase off p).outAt p.out.length) bs,
        cursor := p.out.length + bs.length } := by
  simp only [jobAt, Memory.writeBytes_append, List.length_append, State.outAt, Nat.add_zero]

theorem append_mirrors (hfits : s.outRegion.fits = true) (p : Packer) (bs : List Byte) :
    Mirrors (jobAt s phase off) (p.append s.cap bs) ((jobAt s phase off p).append bs) := by
  rw [packer_append_eq]
  rcases Nat.lt_or_ge s.cap (p.out.length + bs.length) with hover | hroom
  · rw [if_pos hover]
    exact ⟨p, rfl, append_exhausted (s := jobAt s phase off p) hover⟩
  · rw [if_neg (not_lt.2 hroom)]
    exact (State.append_fits (s := jobAt s phase off p) hroom hfits).trans
      (congrArg Effect.ok (jobAt_append s phase off p bs).symm)

theorem openGroup_mirrors (hfits : s.outRegion.fits = true) (p : Packer) :
    Mirrors (jobAt s phase off) (p.openGroup s.cap) (jobAt s phase off p).openGroup := by
  rw [packer_openGroup_eq_bind, State.openGroup]
  by_cases hcount : p.count = 0
  · have hjob : (jobAt s phase off p).count = 0 := hcount
    rw [if_pos hcount, if_pos hjob]
    exact (append_mirrors hfits { p with flagPos := p.out.length } [0x00]).andThen fun q _ => rfl
  · have hjob : (jobAt s phase off p).count ≠ 0 := hcount
    rw [if_neg hcount, if_neg hjob]
    exact mirrors_ok p

theorem putToken_mirrors (hfits : s.outRegion.fits = true) (p : Packer) :
    Mirrors (jobAt s phase off) (p.putToken s.cap tok) ((jobAt s phase off p).putToken tok) := by
  rw [packer_putToken_eq_bind]
  exact (append_mirrors hfits p tok.bytes).andThen fun q _ => rfl

theorem closeGroup_mirrors (hmem : s.mem.wf) (hfits : s.outRegion.fits = true) (hflag : p.flagPos < p.out.length)
    (hcap : p.out.length ≤ s.cap) :
    Mirrors (jobAt s phase off) (.ok (p.closeGroup s.n next)) ((jobAt s phase off p).closeGroup next) := by
  have hclose := closeGroup_fits (s := jobAt s phase off p) (next := next) hfits (hflag.trans_le hcap)
  refine hclose.trans (congrArg Effect.ok ?_)
  have hspace := outAt_add_le_of_fits hfits (j := 0) (k := p.out.length) (by rwa [Nat.zero_add])
  have hwrite := Memory.write_writeBytes hmem hspace hflag p.flagVal
  by_cases hend : p.count = Config.groupSize ∨ next = s.n
  · rw [Packer.closeGroup, if_pos hend]
    have hjob : (jobAt s phase off p).count = Config.groupSize ∨ next = (jobAt s phase off p).n := hend
    refine (if_pos hjob).trans ?_
    simp only [jobAt, List.length_set, State.outAt, Nat.add_zero] at hwrite ⊢
    rw [hwrite]
  · rw [Packer.closeGroup, if_neg hend]
    exact if_neg hend

theorem emit_mirrors (hmem : s.mem.wf) (hfits : s.outRegion.fits = true) (hlegal : PackerLegal p)
    (hcap : p.out.length ≤ s.cap) :
    Mirrors (jobAt s phase off) (p.emit s.cap s.n next tok) ((jobAt s phase off p).emit tok next) := by
  rw [packer_emit_eq_bind]
  refine (openGroup_mirrors hfits p).andThen fun q hq => (putToken_mirrors hfits q).andThen fun r hr => ?_
  obtain ⟨rfl, hopen⟩ := (openGroup_capDecides hcap).of_ok hq
  obtain ⟨rfl, hput⟩ := (putToken_capDecides hopen).of_ok hr
  exact closeGroup_mirrors hmem hfits (hlegal.packOpened_flagPos_lt.trans_le (length_le_packToken tok _)) hput

end

/-- What a job keeps from its launch on: the engine has every turn, the arguments are valid, memory is canonical. -/
structure Launched (s : State) : Prop where
  sched : s.sched = []
  busy : s.busy = true
  argsValid : s.argsInvalid = false
  memWf : s.mem.wf

/-- From `u` the job launched in `s` ends as the packer does: completed with its bytes, or exhausted with those it
wrote. -/
def JobEnds (s u : State) (e : Except (List Byte) Packer) : Prop :=
  match e with
  | .ok p => ∃ k phase off, run k u = .next (jobAt s phase off p).complete
  | .error w => ∃ k phase off p, p.out = w ∧ run k u = .next (exhausted (jobAt s phase off p))

section
variable {s u v : State} {phase : Phase} {off next k : Nat} {p q : Packer} {e : Except (List Byte) Packer} {tok : Token}

theorem JobEnds.step_back (hstep : step u = .next v) (h : JobEnds s v e) : JobEnds s u e := by
  cases e with
  | ok p =>
    obtain ⟨k, phase, off, hrun⟩ := h
    exact ⟨k + 1, phase, off, (run_succ_next hstep).trans hrun⟩
  | error w =>
    obtain ⟨k, phase, off, p, hp, hrun⟩ := h
    exact ⟨k + 1, phase, off, p, hp, (run_succ_next hstep).trans hrun⟩

/-- An effect that mirrors a step of the packer, with the move of the engine's own cursor and phase after it, is one
step of the job; where the packer stops, the job ends in that step (R216). -/
theorem JobEnds.of_mirrors {f : Effect} {post : State → State} {g : Packer → Except (List Byte) Packer}
    (hmirror : Mirrors (jobAt s phase off) e f) (hstep : step u = (f.andThen fun t => .ok (post t)).outcome)
    (hrest : ∀ q, e = .ok q → JobEnds s (post (jobAt s phase off q)) (g q)) : JobEnds s u (e.bind g) := by
  cases e with
  | ok q =>
    obtain rfl : f = .ok (jobAt s phase off q) := hmirror
    exact .step_back hstep (hrest q rfl)
  | error w =>
    obtain ⟨q, rfl, rfl⟩ := hmirror
    exact ⟨1, phase, off, q, rfl, run_succ_next hstep⟩

theorem except_bind_assoc {α β γ : Type} (e : Except (List Byte) α) (f : α → Except (List Byte) β)
    (g : β → Except (List Byte) γ) : (e.bind f).bind g = e.bind fun x => (f x).bind g :=
  bind_assoc e f g

theorem andThen_ok_id (f : Effect) : (f.andThen fun t => .ok t) = f := by cases f <;> rfl

theorem length_inputBytes (s : State) : s.inputBytes.length = s.n := by
  rw [State.inputBytes, List.length_map, List.length_range]

theorem byteAt_inputBytes {i : Nat} (hi : i < s.n) : byteAt s.inputBytes i = s.inByte i := by
  rw [byteAt_eq_getElem (by rwa [length_inputBytes])]
  simp [State.inputBytes]

variable (h : Launched s)
include h

theorem Launched.step_jobAt (phase : Phase) (off : Nat) (p : Packer) :
    step (jobAt s phase off p) = engineStep (jobAt s phase off p) := by
  rw [step_engine (State.turn_nil_busy (s := jobAt s phase off p) h.sched h.busy),
    State.useTurn_nil (s := jobAt s phase off p) h.sched]

theorem Launched.outFits : s.outRegion.fits = true := (State.fits_of_argsValid h.argsValid).2

/-- The output region holds no input byte (R214), so the job selects the tokens of the input it was launched on. -/
theorem Launched.jobAt_selected (hcap : p.out.length ≤ s.cap) (hoff : off < s.n) :
    (jobAt s phase off p).selected = (select (byteAt s.inputBytes) s.n off).1 := by
  refine congrArg Prod.fst (select_congr (fun i hi => ?_) hoff)
  have hin : s.inRegion.contains (s.inAt i) = true := inRegion_contains_inAt hi
  have hout := (Region.contains_eq_false _ _).1 (State.disjoint_of_argsValid h.argsValid hin)
  rw [byteAt_inputBytes (s := s) hi]
  refine Memory.read_writeBytes_outside (hout.imp_right fun hge => ?_) _
  exact (Nat.add_le_add_left hcap _).trans hge

/-! #### The phases -/

/-- Padding, one byte a step, and completion (R176, R177). -/
theorem Launched.pad_ends (hk : padCount p.out.length ≤ k) (hcap : p.out.length ≤ s.cap) :
    JobEnds s (jobAt s .pad off p) (Packer.pad s.cap k p) := by
  have hstep (p : Packer) : step (jobAt s .pad off p) = execPad (jobAt s .pad off p) :=
    (h.step_jobAt .pad off p).trans (engineStep_pad rfl)
  have haligned {p : Packer} (hp : p.out.length % Config.padMultiple = 0) : JobEnds s (jobAt s .pad off p) (.ok p) :=
    ⟨1, .pad, off, run_succ_next ((hstep p).trans (execPad_aligned hp))⟩
  induction k generalizing p with
  | zero =>
    have hp := (padCount_aligns p.out.length).2
    rw [Nat.le_zero.1 hk, Nat.add_zero] at hp
    exact haligned hp
  | succ k ih =>
    rw [packer_pad_eq_bind]
    split
    · next hp => exact haligned hp
    · next hp =>
      have hexec : step (jobAt s .pad off p) = ((jobAt s .pad off p).append [0x00]).outcome :=
        (hstep p).trans (execPad_unaligned hp)
      rw [← andThen_ok_id ((jobAt s .pad off p).append [0x00])] at hexec
      refine .of_mirrors (append_mirrors h.outFits p [0x00]) hexec fun q hq => ?_
      obtain ⟨rfl, hroom⟩ := (append_capDecides [0x00] hcap).of_ok hq
      rw [padCount_append_singleton 0x00 hp] at hk
      exact ih (Nat.le_of_succ_le_succ hk) hroom

/-- The main loop, one token a step, then the padding (R174, R175). -/
theorem Launched.loop_ends (hk : s.n ≤ off + k) (hoff : off ≤ s.n) (hlegal : PackerLegal p)
    (hcap : p.out.length ≤ s.cap) :
    JobEnds s (jobAt s .token off p)
      ((Packer.loop (byteAt s.inputBytes) s.n s.cap k off p).bind (Packer.pad s.cap (Config.padMultiple - 1))) := by
  have hstep (off : Nat) (p : Packer) : step (jobAt s .token off p) = tokenStep (jobAt s .token off p) :=
    (h.step_jobAt .token off p).trans (engineStep_token rfl)
  have hdone {off : Nat} {p : Packer} (hend : off = s.n) (hcap : p.out.length ≤ s.cap) :
      JobEnds s (jobAt s .token off p) (Packer.pad s.cap (Config.padMultiple - 1) p) :=
    .step_back ((hstep off p).trans (tokenStep_end hend)) (h.pad_ends (padCount_aligns _).1 hcap)
  induction k generalizing off p with
  | zero => exact hdone (hoff.antisymm hk) hcap
  | succ k ih =>
    rw [packer_loop_eq_bind]
    split
    · next hlt =>
      obtain ⟨-, -, hnext, hle⟩ := selectAdvances (byteAt s.inputBytes) s.n off hlt
      have hexec := (hstep off p).trans (tokenStep_emits hlt.ne (State.fits_of_argsValid h.argsValid).1)
      rw [exec_toInstr, h.jobAt_selected hcap hlt, State.emitToken] at hexec
      rw [except_bind_assoc]
      have hmirror := emit_mirrors (phase := .token) (off := off) (next := (select (byteAt s.inputBytes) s.n off).2)
        (tok := (select (byteAt s.inputBytes) s.n off).1) h.memWf h.outFits hlegal hcap
      rw [select_snd] at hmirror hnext hle ⊢
      refine .of_mirrors hmirror hexec fun q hq => ?_
      obtain ⟨rfl, hroom⟩ := (emit_capDecides hcap).of_ok hq
      exact ih (off := off + (select (byteAt s.inputBytes) s.n off).1.span) (by omega) hle
        (packEmitted_packerLegal hlegal) hroom
    · next hend => exact hdone (hoff.antisymm (not_lt.1 hend)) hcap

/-- The header, then the main loop (R173). -/
theorem Launched.header_ends (hempty : p.out = []) (hcount : p.count = 0) (hflag : p.flagVal = 0) :
    JobEnds s (jobAt s .header off p)
      ((p.append s.cap (headerBytes s.n)).bind fun q =>
        (Packer.loop (byteAt s.inputBytes) s.n s.cap s.n 0 q).bind (Packer.pad s.cap (Config.padMultiple - 1))) := by
  have hexec : step (jobAt s .header off p) = execHeader s.n (jobAt s .header off p) :=
    (h.step_jobAt .header off p).trans (engineStep_header rfl)
  refine .of_mirrors (append_mirrors h.outFits p (headerBytes s.n)) hexec fun q hq => ?_
  obtain ⟨rfl, hroom⟩ := (append_capDecides (headerBytes s.n) (hempty ▸ Nat.zero_le _)).of_ok hq
  have hlegal : PackerLegal { p with out := p.out ++ headerBytes s.n } :=
    ⟨hcount ▸ Nat.succ_pos 7, fun h0 => absurd hcount h0.ne'⟩
  have hloop := h.loop_ends (off := 0) (k := s.n) (by omega) (Nat.zero_le _) hlegal hroom
  obtain ⟨out, flagPos, flagVal, count⟩ := p
  obtain rfl : count = 0 := hcount
  obtain rfl : flagVal = 0 := hflag
  exact hloop

end

/-! #### What the job leaves -/

section
variable {s : State} {off : Nat} {p : Packer}

/-- With no group open the flag byte's place is no part of the packer: the next group sets it. -/
theorem packer_emit_flagPos (n cap next flagPos : Nat) (tok : Token) (hcount : p.count = 0) :
    Packer.emit cap n next tok { p with flagPos := flagPos } = p.emit cap n next tok := by
  have hopen : Packer.openGroup cap { p with flagPos := flagPos } = p.openGroup cap := by
    rw [packer_openGroup_eq_bind, packer_openGroup_eq_bind, if_pos hcount, if_pos hcount]
  rw [packer_emit_eq_bind, packer_emit_eq_bind, hopen]

theorem packer_pad_aligned {cap k : Nat} (h : p.out.length % Config.padMultiple = 0) :
    Packer.pad cap (k + 1) p = .ok p := by
  rw [packer_pad_eq_bind, if_pos h]

theorem packer_rest_flagPos {inp : Nat → Byte} {n cap k : Nat} (flagPos : Nat) (hcount : p.count = 0)
    (haligned : p.out.length % Config.padMultiple = 0) :
    ((Packer.loop inp n cap k off { p with flagPos := flagPos }).bind
        (Packer.pad cap (Config.padMultiple - 1))).map Packer.out =
      ((Packer.loop inp n cap k off p).bind (Packer.pad cap (Config.padMultiple - 1))).map Packer.out := by
  have hdone : (Packer.pad cap (Config.padMultiple - 1) { p with flagPos := flagPos }).map Packer.out =
      (Packer.pad cap (Config.padMultiple - 1) p).map Packer.out := by
    have hpad (q : Packer) (hq : q.out = p.out) : Packer.pad cap (Config.padMultiple - 1) q = .ok q :=
      packer_pad_aligned (hq ▸ haligned)
    rw [hpad { p with flagPos := flagPos } rfl, hpad p rfl]
    rfl
  cases k with
  | zero => exact hdone
  | succ k =>
    rw [packer_loop_eq_bind, packer_loop_eq_bind, packer_emit_flagPos _ _ _ _ _ hcount]
    split
    · rfl
    · exact hdone

/-- START leaves flagPos to the first group, so the packer may begin with any. -/
theorem compress_eq_bind_flagPos (bytes : List Byte) (cap flagPos : Nat) :
    compress bytes cap =
      ((Packer.append cap (headerBytes bytes.length) { emptyPacker with flagPos := flagPos }).bind fun p =>
        (Packer.loop (byteAt bytes) bytes.length cap bytes.length 0 p).bind
          (Packer.pad cap (Config.padMultiple - 1))).map Packer.out := by
  rw [compress_eq_bind, packer_append_eq, packer_append_eq]
  split
  · rfl
  · have haligned : (headerBytes bytes.length).length % Config.padMultiple = 0 := by
      simp [headerBytes, Config.padMultiple]
    exact (packer_rest_flagPos (p := { emptyPacker with out := headerBytes bytes.length }) flagPos rfl haligned).symm

theorem compress_error_length_le {bytes w : List Byte} {cap : Nat} (h : compress bytes cap = .error w) :
    w.length ≤ cap := by
  rcases Nat.lt_or_ge cap (requirement bytes) with hover | hroom
  · obtain ⟨w', hw, hlen⟩ := (referenceGivesStream bytes cap).2 hover
    obtain rfl := Except.error.inj (h.symm.trans hw)
    exact hlen
  · cases h.symm.trans ((referenceGivesStream bytes cap).1 hroom)

theorem jobAt_outputBytes (phase : Phase) (off : Nat) (hmem : s.mem.wf) (hfits : s.outRegion.fits = true)
    (hcap : p.out.length ≤ s.cap) :
    (jobAt s phase off p).outputBytes p.out.length = p.out := by
  have hspace := outAt_add_le_of_fits hfits (j := 0) (k := p.out.length) (by rwa [Nat.zero_add])
  refine List.ext_getElem (by simp [State.outputBytes]) fun j _ hj => ?_
  have hread := Memory.read_writeBytes_inside hmem hspace hj
  rw [List.getD_eq_getElem _ _ hj] at hread
  simp only [State.outputBytes, List.getElem_map, List.getElem_range]
  exact hread

theorem jobAt_frame (phase : Phase) (off : Nat) {a : Nat} (ha : a < s.outAt 0 ∨ s.outAt p.out.length ≤ a) :
    (jobAt s phase off p).mem.read a = s.mem.read a :=
  Memory.read_writeBytes_outside ha _

/-- A clean launch with valid arguments goes from VALIDATE to the header with an empty packer. -/
theorem cleanLaunch_ends (hclean : CleanLaunch s) (hargs : s.argsInvalid = false) :
    ∃ e, compress s.inputBytes s.cap = e.map Packer.out ∧ JobEnds s s e := by
  obtain ⟨hinv, hphase, hsched, hdev⟩ := hclean
  have hbusy : s.busy = true := hinv.busyIff.2 (by simp [hphase])
  have hlaunched : Launched s := ⟨hsched, hbusy, hargs, hinv.memWf⟩
  obtain ⟨-, hcursor, hcount, hflagVal⟩ := hinv.fresh (.inl hphase)
  have hvalidate : step s = .next (jobAt s .header s.off { emptyPacker with flagPos := s.flagPos }) := by
    rw [step_engine (State.turn_nil_busy hsched hbusy), State.useTurn_nil hsched, engineStep_validate hphase,
      validateStep_valid hargs hdev]
    simp only [jobAt, emptyPacker, Memory.writeBytes_nil, List.length_nil, hcursor, hcount, hflagVal]
  have hends := hlaunched.header_ends (off := s.off) (p := { emptyPacker with flagPos := s.flagPos }) rfl rfl rfl
  rw [← length_inputBytes s] at hends
  exact ⟨_, compress_eq_bind_flagPos s.inputBytes s.cap s.flagPos, hends.step_back hvalidate⟩

end

/-- Settles O57: the engine's steps mirror the packer's, from VALIDATE to the end of the job. -/
theorem jobEqualsReference : Obligations.JobEqualsReference := by
  intro s hclean hargs
  have hmem := hclean.1.memWf
  have hfits := (State.fits_of_argsValid hargs).2
  obtain ⟨e, hcompress, hends⟩ := cleanLaunch_ends hclean hargs
  rw [hcompress]
  refine ⟨fun out hok => ?_, fun w herr => ?_⟩
  · cases e with
    | error w => cases hok
    | ok p =>
      obtain rfl : p.out = out := Except.ok.inj hok
      obtain ⟨k, phase, off, hrun⟩ := hends
      have hcap : p.out.length ≤ s.cap := (compress_eq_ok (hcompress.trans hok)).2
      have hresult : (BitVec.ofNat 32 p.out.length).toNat = p.out.length := by
        rw [BitVec.toNat_ofNat]
        exact Nat.mod_eq_of_lt (hcap.trans_lt s.outCap.isLt)
      exact ⟨k, _, hrun, rfl, rfl, rfl, hresult, jobAt_outputBytes phase off hmem hfits hcap,
        fun a ha => jobAt_frame phase off ha⟩
  · cases e with
    | ok p => cases herr
    | error w' =>
      obtain rfl : w' = w := Except.error.inj herr
      obtain ⟨k, phase, off, p, rfl, hrun⟩ := hends
      have hcap : p.out.length ≤ s.cap := compress_error_length_le (hcompress.trans herr)
      exact ⟨k, _, hrun, rfl, rfl, rfl, rfl, jobAt_outputBytes phase off hmem hfits hcap,
        fun a ha => jobAt_frame phase off ha⟩

end Sys2Proof.Proofs
